-- ==== Sys2Proof/Word.lean ====
section
/-! DEFINITION. The machine's two word types (spec/00_scope.md R6, R8): every value is an unsigned number, and a width is
imposed where a rule narrows a result, so a plain bit vector of the rule's width is the type. -/

namespace Sys2Proof

/-- An 8-bit unsigned value: a general register, a timer, a memory cell (R5 `REG_WIDTH`). -/
abbrev Byte := BitVec 8

/-- A 16-bit unsigned value: an instruction word, `pc`, `I`, a stack entry, the key vector (R5). -/
abbrev Word := BitVec 16

end Sys2Proof
end

