-- ==== Sys2Proof/Syntax.lean ====
section
/-! DEFINITION. The 35 instruction variants of spec/30_encoding.md R95, R96, one constructor for each row of
spec/opcode_table.json in the table's order, carrying only the operand fields its format names (R93). -/

namespace Sys2Proof

/-- A register index, the field `X` or `Y` (R92). -/
abbrev Reg := BitVec 4

/-- An address field `NNN` (R92). -/
abbrev Addr12 := BitVec 12

/-- One instruction variant with its operand fields (R96). -/
inductive Instr where
  | sys (nnn : Addr12)               -- 0NNN  SYS NNN         R140
  | cls                              -- 00E0  CLS             R190
  | ret                              -- 00EE  RET             R141
  | jp (nnn : Addr12)                -- 1NNN  JP NNN          R142
  | call (nnn : Addr12)              -- 2NNN  CALL NNN        R143
  | seImm (x : Reg) (nn : Byte)      -- 3XNN  SE Vx, NN       R144
  | sneImm (x : Reg) (nn : Byte)     -- 4XNN  SNE Vx, NN      R145
  | seReg (x y : Reg)                -- 5XY0  SE Vx, Vy       R146
  | ldImm (x : Reg) (nn : Byte)      -- 6XNN  LD Vx, NN       R160
  | addImm (x : Reg) (nn : Byte)     -- 7XNN  ADD Vx, NN      R161
  | ldReg (x y : Reg)                -- 8XY0  LD Vx, Vy       R162
  | orReg (x y : Reg)                -- 8XY1  OR Vx, Vy       R163
  | andReg (x y : Reg)               -- 8XY2  AND Vx, Vy      R164
  | xorReg (x y : Reg)               -- 8XY3  XOR Vx, Vy      R165
  | addReg (x y : Reg)               -- 8XY4  ADD Vx, Vy      R166
  | sub (x y : Reg)                  -- 8XY5  SUB Vx, Vy      R167
  | shr (x y : Reg)                  -- 8XY6  SHR Vx, Vy      R168
  | subn (x y : Reg)                 -- 8XY7  SUBN Vx, Vy     R169
  | shl (x y : Reg)                  -- 8XYE  SHL Vx, Vy      R170
  | sneReg (x y : Reg)               -- 9XY0  SNE Vx, Vy      R147
  | ldI (nnn : Addr12)               -- ANNN  LD I, NNN       R180
  | jpV0 (nnn : Addr12)              -- BNNN  JP V0, NNN      R148
  | rnd (x : Reg) (nn : Byte)        -- CXNN  RND Vx, NN      R171
  | drw (x y : Reg) (n : BitVec 4)   -- DXYN  DRW Vx, Vy, N   R191
  | skp (x : Reg)                    -- EX9E  SKP Vx          R200
  | sknp (x : Reg)                   -- EXA1  SKNP Vx         R201
  | ldVxDt (x : Reg)                 -- FX07  LD Vx, DT       R202
  | ldVxK (x : Reg)                  -- FX0A  LD Vx, K        R203
  | ldDtVx (x : Reg)                 -- FX15  LD DT, Vx       R204
  | ldStVx (x : Reg)                 -- FX18  LD ST, Vx       R205
  | addIVx (x : Reg)                 -- FX1E  ADD I, Vx       R181
  | ldFVx (x : Reg)                  -- FX29  LD F, Vx        R182
  | ldBVx (x : Reg)                  -- FX33  LD B, Vx        R183
  | stRegs (x : Reg)                 -- FX55  LD [I], Vx      R184
  | ldRegs (x : Reg)                 -- FX65  LD Vx, [I]      R185
  deriving DecidableEq, Repr

end Sys2Proof
end

