-- ==== Sys2Proof/WellFormed.lean ====
section
/-! DEFINITION. Which terms of `Instr` are instructions of the machine: those some word decodes to. The three class-0 rows
overlap, and the words 00E0 and 00EE are `CLS` and `RET`, so `SYS` with those addresses is no instruction
(spec/30_encoding.md R97, R99). Every other field value of every other row is legal (R98, R104). -/

namespace Sys2Proof

/-- `SYS 0x0E0` and `SYS 0x0EE` have no encoding of their own (R97, R99); nothing else is ill-formed. -/
def Instr.wf : Instr → Bool
  | .sys nnn => nnn != 0x0E0#12 && nnn != 0x0EE#12
  | .cls | .ret | .jp _ | .call _ | .seImm _ _ | .sneImm _ _ | .seReg _ _ | .ldImm _ _ | .addImm _ _
  | .ldReg _ _ | .orReg _ _ | .andReg _ _ | .xorReg _ _ | .addReg _ _ | .sub _ _ | .shr _ _ | .subn _ _
  | .shl _ _ | .sneReg _ _ | .ldI _ | .jpV0 _ | .rnd _ _ | .drw _ _ _ | .skp _ | .sknp _ | .ldVxDt _
  | .ldVxK _ | .ldDtVx _ | .ldStVx _ | .addIVx _ | .ldFVx _ | .ldBVx _ | .stRegs _ | .ldRegs _ => true

end Sys2Proof
end

