-- ==== Sys2Proof/Decode.lean ====
section
/-! DEFINITION. The decoder of spec/30_encoding.md R92, R95, R97 and, after it, an encoder written from the same table
(R96). Every helper that picks a field or orders bytes stands here. -/

namespace Sys2Proof

/-- Why a decode fails. `decodeError` is the spec's DecodeError (R95, R98); `truncated` is the list decoder's own answer to
fewer than two bytes, which no fetch gives it (a fetch of fewer bytes is a MemoryBoundsError, R123). -/
inductive DecodeFailure where
  | decodeError
  | truncated
  deriving DecidableEq, Repr

/-- `op`, bits 15:12 (R92). -/
def opField (w : Word) : BitVec 4 := w.extractLsb' 12 4

/-- `X`, bits 11:8 (R92). -/
def xField (w : Word) : Reg := w.extractLsb' 8 4

/-- `Y`, bits 7:4 (R92). -/
def yField (w : Word) : Reg := w.extractLsb' 4 4

/-- `N`, bits 3:0 (R92). -/
def nField (w : Word) : BitVec 4 := w.extractLsb' 0 4

/-- `NN`, bits 7:0 (R92). -/
def nnField (w : Word) : Byte := w.extractLsb' 0 8

/-- `NNN`, bits 11:0 (R92). -/
def nnnField (w : Word) : Addr12 := w.extractLsb' 0 12

/-- The word of two consecutive bytes, the byte at the lower address in bits 15:8 (R91, spec/20_memory.md R64). -/
def wordOfBytes (hi lo : Byte) : Word := hi ++ lo

/-- The two bytes of a word in the order memory holds them (R91). -/
def bytesOfWord (w : Word) : List Byte := [w.extractLsb' 8 8, w.extractLsb' 0 8]

/-- Class 8 of R97: nine sub-opcodes, the other seven undefined (R98). -/
def decodeClass8 (w : Word) : Except DecodeFailure Instr :=
  match nField w with
  | 0x0#4 => .ok (.ldReg (xField w) (yField w))
  | 0x1#4 => .ok (.orReg (xField w) (yField w))
  | 0x2#4 => .ok (.andReg (xField w) (yField w))
  | 0x3#4 => .ok (.xorReg (xField w) (yField w))
  | 0x4#4 => .ok (.addReg (xField w) (yField w))
  | 0x5#4 => .ok (.sub (xField w) (yField w))
  | 0x6#4 => .ok (.shr (xField w) (yField w))
  | 0x7#4 => .ok (.subn (xField w) (yField w))
  | 0xE#4 => .ok (.shl (xField w) (yField w))
  | _ => .error .decodeError

/-- Class E of R97. -/
def decodeClassE (w : Word) : Except DecodeFailure Instr :=
  match nnField w with
  | 0x9E#8 => .ok (.skp (xField w))
  | 0xA1#8 => .ok (.sknp (xField w))
  | _ => .error .decodeError

/-- Class F of R97. -/
def decodeClassF (w : Word) : Except DecodeFailure Instr :=
  match nnField w with
  | 0x07#8 => .ok (.ldVxDt (xField w))
  | 0x0A#8 => .ok (.ldVxK (xField w))
  | 0x15#8 => .ok (.ldDtVx (xField w))
  | 0x18#8 => .ok (.ldStVx (xField w))
  | 0x1E#8 => .ok (.addIVx (xField w))
  | 0x29#8 => .ok (.ldFVx (xField w))
  | 0x33#8 => .ok (.ldBVx (xField w))
  | 0x55#8 => .ok (.stRegs (xField w))
  | 0x65#8 => .ok (.ldRegs (xField w))
  | _ => .error .decodeError

/-- Class 0 of R97: the two full-word rows first, every other word is `SYS` (R99). -/
def decodeClass0 (w : Word) : Instr :=
  if w = 0x00E0#16 then .cls else if w = 0x00EE#16 then .ret else .sys (nnnField w)

/-- `Decode(w)` (R95, R97): total, reads no state. -/
def decode (w : Word) : Except DecodeFailure Instr :=
  match opField w with
  | 0x0#4 => .ok (decodeClass0 w)
  | 0x1#4 => .ok (.jp (nnnField w))
  | 0x2#4 => .ok (.call (nnnField w))
  | 0x3#4 => .ok (.seImm (xField w) (nnField w))
  | 0x4#4 => .ok (.sneImm (xField w) (nnField w))
  | 0x5#4 => if nField w = 0x0#4 then .ok (.seReg (xField w) (yField w)) else .error .decodeError
  | 0x6#4 => .ok (.ldImm (xField w) (nnField w))
  | 0x7#4 => .ok (.addImm (xField w) (nnField w))
  | 0x8#4 => decodeClass8 w
  | 0x9#4 => if nField w = 0x0#4 then .ok (.sneReg (xField w) (yField w)) else .error .decodeError
  | 0xA#4 => .ok (.ldI (nnnField w))
  | 0xB#4 => .ok (.jpV0 (nnnField w))
  | 0xC#4 => .ok (.rnd (xField w) (nnField w))
  | 0xD#4 => .ok (.drw (xField w) (yField w) (nField w))
  | 0xE#4 => decodeClassE w
  | _ => decodeClassF w

/-- The decoder on bytes as memory holds them: one instruction and the bytes after it (R90, R91). -/
def decodeBytes : List Byte → Except DecodeFailure (Instr × List Byte)
  | hi :: lo :: rest =>
    match decode (wordOfBytes hi lo) with
    | .ok i => .ok (i, rest)
    | .error e => .error e
  | [_] => .error .truncated
  | [] => .error .truncated

/-- The word of an instruction, field by field from the patterns of R96. -/
def encode : Instr → Word
  | .sys nnn => 0x0#4 ++ nnn
  | .cls => 0x00E0#16
  | .ret => 0x00EE#16
  | .jp nnn => 0x1#4 ++ nnn
  | .call nnn => 0x2#4 ++ nnn
  | .seImm x nn => 0x3#4 ++ x ++ nn
  | .sneImm x nn => 0x4#4 ++ x ++ nn
  | .seReg x y => 0x5#4 ++ x ++ y ++ 0x0#4
  | .ldImm x nn => 0x6#4 ++ x ++ nn
  | .addImm x nn => 0x7#4 ++ x ++ nn
  | .ldReg x y => 0x8#4 ++ x ++ y ++ 0x0#4
  | .orReg x y => 0x8#4 ++ x ++ y ++ 0x1#4
  | .andReg x y => 0x8#4 ++ x ++ y ++ 0x2#4
  | .xorReg x y => 0x8#4 ++ x ++ y ++ 0x3#4
  | .addReg x y => 0x8#4 ++ x ++ y ++ 0x4#4
  | .sub x y => 0x8#4 ++ x ++ y ++ 0x5#4
  | .shr x y => 0x8#4 ++ x ++ y ++ 0x6#4
  | .subn x y => 0x8#4 ++ x ++ y ++ 0x7#4
  | .shl x y => 0x8#4 ++ x ++ y ++ 0xE#4
  | .sneReg x y => 0x9#4 ++ x ++ y ++ 0x0#4
  | .ldI nnn => 0xA#4 ++ nnn
  | .jpV0 nnn => 0xB#4 ++ nnn
  | .rnd x nn => 0xC#4 ++ x ++ nn
  | .drw x y n => 0xD#4 ++ x ++ y ++ n
  | .skp x => 0xE#4 ++ x ++ 0x9E#8
  | .sknp x => 0xE#4 ++ x ++ 0xA1#8
  | .ldVxDt x => 0xF#4 ++ x ++ 0x07#8
  | .ldVxK x => 0xF#4 ++ x ++ 0x0A#8
  | .ldDtVx x => 0xF#4 ++ x ++ 0x15#8
  | .ldStVx x => 0xF#4 ++ x ++ 0x18#8
  | .addIVx x => 0xF#4 ++ x ++ 0x1E#8
  | .ldFVx x => 0xF#4 ++ x ++ 0x29#8
  | .ldBVx x => 0xF#4 ++ x ++ 0x33#8
  | .stRegs x => 0xF#4 ++ x ++ 0x55#8
  | .ldRegs x => 0xF#4 ++ x ++ 0x65#8

/-- The bytes of an instruction as memory holds them. -/
def encodeBytes (i : Instr) : List Byte := bytesOfWord (encode i)

/-- What the decoder reads from an instruction whose bits are `w` as spec/opcode_table.json numbers them: one 16-bit word,
high byte first. Bits of `w` at or above `nbits` are no bits of the instruction and are taken as 0. -/
def decodeTableWord (nbits w : Nat) : Option Instr :=
  match decodeBytes (bytesOfWord (BitVec.ofNat 16 (w % 2 ^ nbits))) with
  | .ok (i, _) => some i
  | .error _ => none

end Sys2Proof
end

