-- ==== Sys2Proof/Config.lean ====
section
/-! DEFINITION. The configuration record `CFG` of spec/00_scope.md R5 with its defaults, and the one free value of the
machine, the answers of the external randomness source (spec/60_exceptions.md R233). -/

namespace Sys2Proof

/-- What an engine error does (R5 `ERROR_POLICY`; spec/40_execution_cycle.md R126, R127). -/
inductive ErrorPolicy where
  | halt
  | permissive
  deriving DecidableEq, Repr

/-- Which register `SHR` and `SHL` shift (R5 `Q_SHIFT_SRC`; spec/42_alu.md R168, R170). -/
inductive ShiftSource where
  | vx
  | vy
  deriving DecidableEq, Repr

/-- The configuration record of R5. It never changes during a run. -/
structure Config where
  /-- `FONT_BASE`: address of the first font byte. -/
  fontBase : Nat
  /-- `FONT_DATA`: the 80 bytes of the 16 digit sprites, digit 0 first, five bytes a digit. -/
  fontData : Vector Byte 80
  /-- `STEPS_PER_TICK`: engine steps in one tick; 0 is legal. -/
  stepsPerTick : Nat
  /-- `ERROR_POLICY`. -/
  errorPolicy : ErrorPolicy
  /-- `Q_KEYWAIT_HALTS_TIMERS`. -/
  keyWaitHaltsTimers : Bool
  /-- `Q_SHIFT_SRC`. -/
  shiftSrc : ShiftSource
  /-- `Q_LOGIC_RESETS_VF`. -/
  logicResetsVF : Bool
  /-- `Q_MEM_INCR_I`. -/
  memIncrI : Bool
  deriving DecidableEq, Repr

/-- The two user knobs for the speed (spec/60_exceptions.md R227): a step count, which overrides, or a CPU frequency. -/
inductive SpeedKnob where
  | stepsPerFrame (n : Nat)
  | cpuHz (f : Nat)
  deriving DecidableEq, Repr

/-- `STEPS_PER_TICK` from the knob in force: the count itself, or `f div 60` (R227, floor). -/
def SpeedKnob.stepsPerTick : SpeedKnob → Nat
  | .stepsPerFrame n => n
  | .cpuHz f => f / 60

/-- The knob in force when the two are given (R227): steps-per-frame overrides frequency, whose default is 600 Hz. -/
def SpeedKnob.choose (stepsPerFrame cpuHz : Option Nat) : SpeedKnob :=
  match stepsPerFrame with
  | some n => .stepsPerFrame n
  | none => .cpuHz (cpuHz.getD 600)

/-- The default `FONT_DATA`: the table of spec/10_state.md R37. -/
def Config.defaultFont : Vector Byte 80 := #v[
  0xF0, 0x90, 0x90, 0x90, 0xF0,  0x20, 0x60, 0x20, 0x20, 0x70,
  0xF0, 0x10, 0xF0, 0x80, 0xF0,  0xF0, 0x10, 0xF0, 0x10, 0xF0,
  0x90, 0x90, 0xF0, 0x10, 0x10,  0xF0, 0x80, 0xF0, 0x10, 0xF0,
  0xF0, 0x80, 0xF0, 0x90, 0xF0,  0xF0, 0x10, 0x20, 0x40, 0x40,
  0xF0, 0x90, 0xF0, 0x90, 0xF0,  0xF0, 0x90, 0xF0, 0x10, 0xF0,
  0xF0, 0x90, 0xF0, 0x90, 0x90,  0xE0, 0x90, 0xE0, 0x90, 0xE0,
  0xF0, 0x80, 0x80, 0x80, 0xF0,  0xE0, 0x90, 0x90, 0x90, 0xE0,
  0xF0, 0x80, 0xF0, 0x80, 0xF0,  0xF0, 0x80, 0xF0, 0x80, 0x80]

/-- The defaults of R5, which spec/95_test_vectors.md uses. -/
def Config.default : Config where
  fontBase := 0x050
  fontData := Config.defaultFont
  stepsPerTick := 10
  errorPolicy := .halt
  keyWaitHaltsTimers := false
  shiftSrc := .vx
  logicResetsVF := false
  memIncrI := false

/-- The one constraint the spec puts on a configuration: the font lies below 0x200 (spec/20_memory.md R61). -/
def Config.wf (c : Config) : Bool := decide (c.fontBase + 79 ≤ 0x1FF)

/-- FREE VALUE (log entry 3). `Config.randByte n` is the answer of the `n`-th call of `RandByte()` since power-on
(spec/42_alu.md R171, spec/60_exceptions.md R233: "a model treats each answer as a free draw"). It has no body, so nothing
can be proved about which byte it is. -/
opaque Config.randByte : Nat → Byte

end Sys2Proof
end

