-- ==== Sys2Proof/Machine/State.lean ====
section
/-! DEFINITION. The architectural state of spec/10_state.md R20 as plain data, the output latches of R34, the reasons a run
of the model can stop, and the state after reset (R36). -/

namespace Sys2Proof.Machine

/-- `ERR.kind` (R32, spec/60_exceptions.md R210). RomLoadError, code 5, is "never stored in `ERR`" and so is no kind. -/
inductive ErrorKind where
  | none
  | decodeError
  | memoryBoundsError
  | stackOverflow
  | stackUnderflow
  deriving DecidableEq, Repr

/-- The error latch `ERR` (R32). -/
structure ErrorLatch where
  kind : ErrorKind
  addr : Word
  word : Word
  deriving DecidableEq, Repr

/-- Memory as (address, byte) pairs in one canonical form: addresses strictly rising, no entry equal to what an unlisted
address reads as (log entry 4). -/
abbrev Memory := List Host.Cell

/-- The display buffer `FB` (R29): row `y` is entry `y`, and bit `x` of a row is the pixel of column `x`, so that bit
`y*64 + x` of the rows laid end to end is pixel `(x, y)`, the row-major index of R29 and R231. -/
abbrev Framebuffer := Vector (BitVec 64) 32

/-- The whole state aggregate (R20), then the two latched outputs (R34), then the model's own two fields. -/
structure State where
  /-- `V[0..15]` (R21); `V[15]` is `VF` (R22). -/
  v : Vector Byte 16
  /-- `I` (R23); bits 15:12 are 0 in every state a run reaches. -/
  i : Word
  /-- `pc` (R24), not masked to 12 bits. -/
  pc : Word
  /-- `SP` (R25): the number of return addresses in use, 0 to 16. -/
  sp : Fin 17
  /-- `S[0..15]` (R25), no part of memory. -/
  stack : Vector Word 16
  /-- `DT` (R26). -/
  dt : Byte
  /-- `ST` (R27). -/
  st : Byte
  /-- `MEM` (R28). -/
  mem : Memory
  /-- `FB` (R29). -/
  fb : Framebuffer
  /-- `K` (R30): bit `k` is key `k`, 1 is pressed. -/
  keys : Word
  /-- `WAIT` (R31). -/
  wait : Bool
  /-- `WAITX` (R31), meaningful only while `wait`. -/
  waitX : Reg
  /-- `ERR` (R32). -/
  err : ErrorLatch
  /-- `FRAME_OUT` (R34, R231): the frame handed over by the last `FrameOut`. -/
  frameOut : Framebuffer
  /-- `SOUND_OUT` (R34, R230): the boolean handed over by the last `FrameOut`. -/
  soundOut : Bool
  /-- THE MODEL'S OWN FIELD (log entry 3): how many answers of `RandByte()` have been taken. -/
  draws : Nat
  /-- `CFG` (R5), a constant of the run that the model keeps in State (log entry 2). No event changes it. -/
  cfg : Config
  deriving DecidableEq, Repr

/-- Why the model stops. -/
inductive Fault where
  /-- RomLoadError (spec/60_exceptions.md R210, spec/70_reset_and_hazards.md R252): raised by `resetRom` alone, for a ROM of
  more than 3584 bytes; "the machine is not constructed", so there is no next state. Never raised by `step` or `exec`. SAFE:
  the spec gives no machine state here. -/
  | romLoadError
  deriving DecidableEq, Repr

/-- Why the model gives a step no meaning. -/
inductive Refusal where
  /-- An instruction that has no meaning in the model, by its mnemonic. Only arms of `exec` may answer it, and no arm does:
  all 35 have their meaning. SAFE: the model stops where the machine goes on. -/
  | notModelled (mnemonic : String)
  deriving DecidableEq, Repr

/-- What one step, one instruction or one event answers. -/
abbrev Result := Host.Outcome State Fault Refusal

/-- The empty error latch (R36): kind NONE, address 0, word 0. -/
def ErrorLatch.clear : ErrorLatch := ⟨.none, 0, 0⟩

/-- A display with every pixel unlit (R36). -/
def Framebuffer.blank : Framebuffer := Vector.replicate 32 0#64

/-- The machine right after reset with the empty ROM, a legal one (R36, spec/70_reset_and_hazards.md R250, R251), under
the default configuration of R5. Memory lists nothing: an unlisted address reads as the reset image (the font, else 0). -/
def State.reset : State where
  v := Vector.replicate 16 0#8
  i := 0x0000#16
  pc := 0x0200#16
  sp := 0
  stack := Vector.replicate 16 0#16
  dt := 0x00#8
  st := 0x00#8
  mem := []
  fb := Framebuffer.blank
  keys := 0x0000#16
  wait := false
  waitX := 0x0#4
  err := ErrorLatch.clear
  frameOut := Framebuffer.blank
  soundOut := false
  draws := 0
  cfg := Config.default

end Sys2Proof.Machine
end

