-- ==== Sys2Proof/Machine/Ops.lean ====
section
/-! DEFINITION. The named operations over registers, program counter, stack, memory, display and inputs that the meanings
share (spec/00_scope.md R7), and the entry into an engine error (spec/40_execution_cycle.md R126, R127). -/

namespace Sys2Proof.Machine

/-! ### General registers and the index register -/

/-- `V[x]` (R7, spec/10_state.md R21). -/
def State.getReg (s : State) (x : Reg) : Byte := s.v[x.toNat]'x.isLt

/-- `V[x] <- b` (R7, R21). -/
def State.setReg (s : State) (x : Reg) (b : Byte) : State := { s with v := s.v.set x.toNat b x.isLt }

/-- `I <- a`: every write stores the low 12 bits (spec/10_state.md R23). -/
def State.setI (s : State) (a : Word) : State := { s with i := a &&& 0x0FFF#16 }

/-! ### The program counter -/

/-- `pc <- target` (R7). -/
def State.jump (s : State) (target : Word) : State := { s with pc := target }

/-- `next`: `pc <- (pc + 2) mod 65536` (R7). -/
def State.advance (s : State) : State := s.jump (s.pc + 2#16)

/-- `skip`: `pc <- (pc + 4) mod 65536` (R7, spec/41_control_flow.md R149). -/
def State.skip (s : State) : State := s.jump (s.pc + 4#16)

/-! ### The return stack -/

/-- `S[SP] <- a; SP <- SP + 1`, where there is room (spec/10_state.md R25). -/
def State.pushReturn (s : State) (a : Word) : Option State :=
  if h : s.sp.val < 16 then
    some { s with stack := s.stack.set s.sp.val a h, sp := ⟨s.sp.val + 1, by omega⟩ }
  else
    none

/-- `SP <- SP - 1; pc <- S[SP]`, where the stack is not empty (R25). The entry is not cleared. -/
def State.popReturn (s : State) : Option State :=
  if h : s.sp.val = 0 then
    none
  else
    some { s with
      sp := ⟨s.sp.val - 1, by omega⟩
      pc := s.stack[s.sp.val - 1]'(by omega) }

/-! ### Memory -/

/-- What a byte of memory that nothing has written holds (spec/20_memory.md R61, spec/10_state.md R36): the font at
`FONT_BASE`, 0x00 elsewhere. -/
def resetByte (c : Config) (a : Nat) : Byte :=
  if h : c.fontBase ≤ a ∧ a < c.fontBase + 80 then c.fontData[a - c.fontBase]'(by omega) else 0x00#8

/-- The byte listed at an address, if one is. -/
def Memory.lookup : Memory → Nat → Option Byte
  | [], _ => none
  | (a', b) :: m, a => if a = a' then some b else Memory.lookup m a

/-- Lists `b` at `a`, in its place in the rising order. -/
def Memory.insertCell (a : Nat) (b : Byte) : Memory → Memory
  | [] => [(a, b)]
  | (a', b') :: m =>
    if a < a' then (a, b) :: (a', b') :: m
    else if a = a' then (a, b) :: m
    else (a', b') :: Memory.insertCell a b m

/-- Takes the entry at `a` out. -/
def Memory.eraseCell (a : Nat) : Memory → Memory
  | [] => []
  | (a', b') :: m => if a = a' then m else (a', b') :: Memory.eraseCell a m

/-- The canonical form from address `lo` on: addresses strictly rising, inside the address space, and no entry equal to
what an unlisted address reads as. -/
def Memory.wfFrom (c : Config) : Nat → Memory → Bool
  | _, [] => true
  | lo, (a, b) :: m => decide (lo ≤ a) && decide (a < 0x1000) && b != resetByte c a && Memory.wfFrom c (a + 1) m

/-- The canonical form of memory under a configuration. -/
def Memory.wf (c : Config) (m : Memory) : Bool := Memory.wfFrom c 0 m

/-- `MEM[a] <- b` on the list, keeping the canonical form. -/
def Memory.write (c : Config) (m : Memory) (a : Nat) (b : Byte) : Memory :=
  if b = resetByte c a then Memory.eraseCell a m else Memory.insertCell a b m

/-- `MEM[a]` for one address; every access of the machine goes through `memRead`, which checks the range first. -/
def State.readByte (s : State) (a : Nat) : Byte := (Memory.lookup s.mem a).getD (resetByte s.cfg a)

/-- `MEM[a] <- b` for one address; every store of the machine goes through `memWrite`, which checks the range first. -/
def State.writeByte (s : State) (a : Nat) (b : Byte) : State := { s with mem := Memory.write s.cfg s.mem a b }

/-- `MEM[a + j] <- bytes[j]`, in ascending order. -/
def State.writeBytes (s : State) (a : Nat) : List Byte → State
  | [] => s
  | b :: bs => (s.writeByte a b).writeBytes (a + 1) bs

/-- Whether the `n` bytes at `a` lie in 0x000..0xFFF; no bytes always do (spec/20_memory.md R62, R63). -/
def inBounds (a n : Nat) : Bool := decide (n = 0) || decide (a + n - 1 ≤ 0xFFF)

/-- The failing address of an access at `a` that leaves the address space: the smallest one beyond 0xFFF (R62). -/
def boundsAddr (a : Nat) : Nat := max a 0x1000

/-- `MemRead(a, n)` (R62): the bytes in ascending order, or the failing address. -/
def State.memRead (s : State) (a n : Nat) : Except Nat (List Byte) :=
  if inBounds a n then .ok ((List.range n).map fun j => s.readByte (a + j)) else .error (boundsAddr a)

/-- `MemWrite(a, n, bytes)` (R63): all of the bytes, or none of them and the failing address. -/
def State.memWrite (s : State) (a : Nat) (bytes : List Byte) : Except Nat State :=
  if inBounds a bytes.length then .ok (s.writeBytes a bytes) else .error (boundsAddr a)

/-- `Fetch(pc)` (spec/40_execution_cycle.md R123): `w = b[0] ++ b[1]`, or the failing address. Nothing changes. -/
def State.fetch (s : State) : Except Nat Word :=
  match s.memRead s.pc.toNat 2 with
  | .ok b => .ok (wordOfBytes (b.getD 0 0x00#8) (b.getD 1 0x00#8))
  | .error a => .error a

/-! ### Blocks of registers -/

/-- `[ V[0], ..., V[n-1] ]` (spec/43_index_memory.md R184). -/
def State.regBlock (s : State) (n : Nat) : List Byte := (List.range n).map fun j => s.getReg (BitVec.ofNat 4 j)

/-- `V[j] <- b[0]; V[j+1] <- b[1]; ...` (spec/43_index_memory.md R185). -/
def State.setRegBlock (s : State) (j : Nat) : List Byte → State
  | [] => s
  | b :: bs => (s.setReg (BitVec.ofNat 4 j) b).setRegBlock (j + 1) bs

/-! ### The display buffer -/

/-- `FB[y][x]` (spec/10_state.md R29). -/
def Framebuffer.pixel (f : Framebuffer) (x : Fin 64) (y : Fin 32) : Bool := (f[y.val]'y.isLt).getLsbD x.val

/-- `FB[y][x] <- FB[y][x] ^ b` (spec/44_display.md R191). -/
def Framebuffer.xorPixel (f : Framebuffer) (x : Fin 64) (y : Fin 32) (b : Bool) : Framebuffer :=
  if b then f.set y.val (f[y.val]'y.isLt ^^^ BitVec.twoPow 64 x.val) y.isLt else f

/-! ### Keys and randomness -/

/-- `K[k]` (spec/10_state.md R30). -/
def State.keyDown (s : State) (k : BitVec 4) : Bool := s.keys.getLsbD k.toNat

/-- The smallest index with `K[k] = 1`, if a key is pressed (spec/40_execution_cycle.md R122). -/
def lowestKey (keys : Word) : Option Nat := (List.range 16).find? fun k => keys.getLsbD k

/-- One call of `RandByte()` (spec/60_exceptions.md R233): its answer, a free value, and the state after the call. -/
def State.drawByte (s : State) : Byte × State := (Config.randByte s.draws, { s with draws := s.draws + 1 })

/-! ### Errors -/

/-- Entry into an engine error (spec/40_execution_cycle.md R126, R127; spec/60_exceptions.md R218, R219). Under `halt`:
`ERR <- (kind, addr, word)` and nothing else. Under `permissive`: `ERR` likewise, then `next`. There is no vector, no saved
state but `ERR`, no mode, and no return: only `Reset` leaves the halted state (R220). -/
def State.takeError (s : State) (kind : ErrorKind) (addr word : Word) : State :=
  match s.cfg.errorPolicy with
  | .halt => { s with err := ⟨kind, addr, word⟩ }
  | .permissive => { s with err := ⟨kind, addr, word⟩ }.advance

/-- `raise kind(addr, word)` (R7): the step ends with the error taken, which is a next state. -/
def raise (kind : ErrorKind) (addr word : Word) (s : State) : Result := .next (s.takeError kind addr word)

/-- `raise MemoryBoundsError(a)` with the word recorded (spec/60_exceptions.md R212, R216). -/
def raiseBounds (a : Nat) (word : Word) (s : State) : Result := raise .memoryBoundsError (BitVec.ofNat 16 a) word s

/-- The machine is halted (spec/10_state.md R32): the output `HALTED_OUT` of R34. -/
def State.halted (s : State) : Bool := decide (s.cfg.errorPolicy = .halt) && decide (s.err.kind ≠ .none)

/-- The output `WAIT_OUT` (R34). -/
def State.waitOut (s : State) : Bool := s.wait

/-- The output `ERR_OUT` (R34). -/
def State.errOut (s : State) : ErrorLatch := s.err

/-- The code of an error kind (spec/60_exceptions.md R210), 3 bits wide (R20). -/
def ErrorKind.code : ErrorKind → BitVec 3
  | .none => 0#3
  | .decodeError => 1#3
  | .memoryBoundsError => 2#3
  | .stackOverflow => 3#3
  | .stackUnderflow => 4#3

/-- The code of RomLoadError (R210), which is reported by the loader and never stored in `ERR`. -/
def romLoadErrorCode : BitVec 3 := 5#3

/-! ### The key-wait poll -/

/-- `KeyWaitPoll` (spec/40_execution_cycle.md R122): with a key down, the lowest index goes to `V[WAITX]`, the wait ends and
`pc` moves past the `LD Vx, K`; else nothing changes. -/
def State.keyWaitPoll (s : State) : State :=
  match lowestKey s.keys with
  | some k => { s.setReg s.waitX (BitVec.ofNat 8 k) with wait := false }.advance
  | none => s

end Sys2Proof.Machine
end

