-- ==== Sys2Proof/Machine/Operands.lean ====
section
/-! DEFINITION. The operand forms of the instruction set (spec/30_encoding.md R94): registers and zero-extended constants,
the digit, key and coordinate taken from a register, the shift source, and the base address `I`. -/

namespace Sys2Proof.Machine

/-- `NNN` as a 16-bit address, zero-extended (R94; spec/41_control_flow.md R142). -/
def addrOperand (nnn : Addr12) : Word := nnn.setWidth 16

/-- `NNN + V[0]`, held in 16 bits and not masked to 12 (spec/41_control_flow.md R148). -/
def State.offsetTarget (s : State) (nnn : Addr12) : Word := BitVec.ofNat 16 (nnn.toNat + (s.getReg 0x0#4).toNat)

/-- `V[x] & 0x0F`: the hexadecimal digit of `LD F` and the key index of `SKP` and `SKNP` (spec/43_index_memory.md R182,
spec/45_input_timers.md R200, R201). -/
def State.lowNibble (s : State) (x : Reg) : BitVec 4 := (s.getReg x).extractLsb' 0 4

/-- The value a shift moves: `V[X]`, or `V[Y]` under `Q_SHIFT_SRC = VY` (spec/42_alu.md R168, R170). -/
def State.shiftOperand (s : State) (x y : Reg) : Byte :=
  match s.cfg.shiftSrc with
  | .vx => s.getReg x
  | .vy => s.getReg y

/-- The base of every data access, `I` (spec/20_memory.md R67). -/
def State.base (s : State) : Nat := s.i.toNat

/-- `FONT_BASE + 5 * d` (spec/43_index_memory.md R182). -/
def State.fontAddr (s : State) (d : BitVec 4) : Word := BitVec.ofNat 16 (s.cfg.fontBase + 5 * d.toNat)

/-- `[ v div 100, (v div 10) mod 10, v mod 10 ]` (spec/43_index_memory.md R183). -/
def bcdDigits (v : Byte) : List Byte :=
  [BitVec.ofNat 8 (v.toNat / 100), BitVec.ofNat 8 (v.toNat / 10 % 10), BitVec.ofNat 8 (v.toNat % 10)]

/-- How many registers a block transfer moves: `X + 1` (spec/43_index_memory.md R184, R185). -/
def blockSize (x : Reg) : Nat := x.toNat + 1

/-- The column `a mod 64` (spec/44_display.md R192). -/
def column (a : Nat) : Fin 64 := Fin.ofNat 64 a

/-- The row `a mod 32` (spec/44_display.md R192). -/
def row (a : Nat) : Fin 32 := Fin.ofNat 32 a

end Sys2Proof.Machine
end

