-- ==== Sys2Proof/Machine/Flags.lean ====
section
/-! DEFINITION. The values written to the flag register `VF` (spec/10_state.md R22) and the order of the writes
(spec/42_alu.md R173). -/

namespace Sys2Proof.Machine

/-- `VF`, register 15 (R22). -/
def vf : Reg := 0xF#4

/-- A flag as the byte written to `VF`: always 0 or 1, to all 8 bits (R22). -/
def flagByte (b : Bool) : Byte := if b then 0x01#8 else 0x00#8

/-- `VF <- b`. -/
def State.setFlag (s : State) (b : Bool) : State := s.setReg vf (flagByte b)

/-- Carry of an addition: the exact sum is above 255 (spec/42_alu.md R166). -/
def carryOut (a b : Byte) : Bool := decide (a.toNat + b.toNat > 255)

/-- Borrow-complement of `a - b`: no borrow, `a >= b` (spec/42_alu.md R167, R169). -/
def noBorrow (a b : Byte) : Bool := decide (a.toNat ≥ b.toNat)

/-- The bit `SHR` shifts out (spec/42_alu.md R168). -/
def shiftedOutRight (a : Byte) : Bool := a.getLsbD 0

/-- The bit `SHL` shifts out (spec/42_alu.md R170). -/
def shiftedOutLeft (a : Byte) : Bool := a.getLsbD 7

/-- `V[x] <- r`, then `VF <- f`: the flag is written last, so with `x = 15` the result is lost (R173). -/
def State.setWithFlag (s : State) (x : Reg) (r : Byte) (f : Bool) : State := (s.setReg x r).setFlag f

/-- `V[x] <- r`, then `VF <- 0` where `Q_LOGIC_RESETS_VF` asks for it (spec/42_alu.md R163 to R165). -/
def State.setLogic (s : State) (x : Reg) (r : Byte) : State :=
  if s.cfg.logicResetsVF then s.setWithFlag x r false else s.setReg x r

end Sys2Proof.Machine
end

