-- ==== Sys2Proof/Machine/Alu.lean ====
section
/-! DEFINITION. The register load, arithmetic, logic, shift and random instructions of spec/42_alu.md. None can raise an
error; both operands are read before anything is written (R174). -/

namespace Sys2Proof.Machine

/-- `LD Vx, NN` (R160). -/
def execLdImm (x : Reg) (nn : Byte) (s : State) : Result := .next (s.setReg x nn).advance

/-- `ADD Vx, NN` (R161): `VF` is not written. -/
def execAddImm (x : Reg) (nn : Byte) (s : State) : Result := .next (s.setReg x (s.getReg x + nn)).advance

/-- `LD Vx, Vy` (R162). -/
def execLdReg (x y : Reg) (s : State) : Result := .next (s.setReg x (s.getReg y)).advance

/-- `OR Vx, Vy` (R163). -/
def execOrReg (x y : Reg) (s : State) : Result := .next (s.setLogic x (s.getReg x ||| s.getReg y)).advance

/-- `AND Vx, Vy` (R164). -/
def execAndReg (x y : Reg) (s : State) : Result := .next (s.setLogic x (s.getReg x &&& s.getReg y)).advance

/-- `XOR Vx, Vy` (R165). -/
def execXorReg (x y : Reg) (s : State) : Result := .next (s.setLogic x (s.getReg x ^^^ s.getReg y)).advance

/-- `ADD Vx, Vy` (R166): the sum mod 256, then the carry. -/
def execAddReg (x y : Reg) (s : State) : Result :=
  .next (s.setWithFlag x (s.getReg x + s.getReg y) (carryOut (s.getReg x) (s.getReg y))).advance

/-- `SUB Vx, Vy` (R167): `Vx - Vy`, then NOT borrow. -/
def execSub (x y : Reg) (s : State) : Result :=
  .next (s.setWithFlag x (s.getReg x - s.getReg y) (noBorrow (s.getReg x) (s.getReg y))).advance

/-- `SHR Vx {, Vy}` (R168). -/
def execShr (x y : Reg) (s : State) : Result :=
  .next (s.setWithFlag x (s.shiftOperand x y >>> 1) (shiftedOutRight (s.shiftOperand x y))).advance

/-- `SUBN Vx, Vy` (R169): `Vy - Vx`, then NOT borrow; the destination is still `Vx`. -/
def execSubn (x y : Reg) (s : State) : Result :=
  .next (s.setWithFlag x (s.getReg y - s.getReg x) (noBorrow (s.getReg y) (s.getReg x))).advance

/-- `SHL Vx {, Vy}` (R170). -/
def execShl (x y : Reg) (s : State) : Result :=
  .next (s.setWithFlag x (s.shiftOperand x y <<< 1) (shiftedOutLeft (s.shiftOperand x y))).advance

/-- `RND Vx, NN` (R171): one draw, masked. -/
def execRnd (x : Reg) (nn : Byte) (s : State) : Result :=
  .next ((s.drawByte.2).setReg x (s.drawByte.1 &&& nn)).advance

end Sys2Proof.Machine
end

