-- ==== Sys2Proof/Machine/ControlFlow.lean ====
section
/-! DEFINITION. The control flow instructions of spec/41_control_flow.md. -/

namespace Sys2Proof.Machine

/-- `skip` if the condition holds, else `next` (R149): the skipped word is not looked at. -/
def skipIf (c : Bool) (s : State) : Result := .next (if c then s.skip else s.advance)

/-- `SYS NNN` (R140): a no-operation; `NNN` is ignored. -/
def execSys (_nnn : Addr12) (s : State) : Result := .next s.advance

/-- `RET` (R141). -/
def execRet (s : State) : Result :=
  match s.popReturn with
  | some t => .next t
  | none => raise .stackUnderflow s.pc (encode .ret) s

/-- `JP NNN` (R142). -/
def execJp (nnn : Addr12) (s : State) : Result := .next (s.jump (addrOperand nnn))

/-- `CALL NNN` (R143): the address after the call is pushed. -/
def execCall (nnn : Addr12) (s : State) : Result :=
  match s.pushReturn (s.pc + 2#16) with
  | some t => .next (t.jump (addrOperand nnn))
  | none => raise .stackOverflow s.pc (encode (.call nnn)) s

/-- `JP V0, NNN` (R148). -/
def execJpV0 (nnn : Addr12) (s : State) : Result := .next (s.jump (s.offsetTarget nnn))

/-- `SE Vx, NN` (R144). -/
def execSeImm (x : Reg) (nn : Byte) (s : State) : Result := skipIf (s.getReg x == nn) s

/-- `SNE Vx, NN` (R145). -/
def execSneImm (x : Reg) (nn : Byte) (s : State) : Result := skipIf (s.getReg x != nn) s

/-- `SE Vx, Vy` (R146). -/
def execSeReg (x y : Reg) (s : State) : Result := skipIf (s.getReg x == s.getReg y) s

/-- `SNE Vx, Vy` (R147). -/
def execSneReg (x y : Reg) (s : State) : Result := skipIf (s.getReg x != s.getReg y) s

end Sys2Proof.Machine
end

