-- ==== Sys2Proof/Machine/Display.lean ====
section
/-! DEFINITION. The display instructions of spec/44_display.md: `CLS`, and `DRW` pixel by pixel as R191 writes it. -/

namespace Sys2Proof.Machine

/-- One sprite pixel `b` drawn at `(x, y)` (R191): `hit` is set when both it and the display pixel are 1, then the display
pixel is XORed. The pair is the display and `hit` so far. -/
def blitPixel (x : Fin 64) (y : Fin 32) (b : Bool) (d : Framebuffer × Bool) : Framebuffer × Bool :=
  (d.1.xorPixel x y b, d.2 || (b && d.1.pixel x y))

/-- One sprite byte: pixel `c` of the row is bit `7 - c`, at column `(x0 + c) mod 64` (R192). -/
def blitRow (x0 : Nat) (y : Fin 32) (b : Byte) (d : Framebuffer × Bool) : Framebuffer × Bool :=
  (List.range 8).foldl (fun d c => blitPixel (column (x0 + c)) y (b.getLsbD (7 - c)) d) d

/-- The bytes of a sprite, the first at row `y0 mod 32` and the next ones below it, wrapping (R192). -/
def blit (x0 y0 : Nat) : List Byte → Framebuffer × Bool → Framebuffer × Bool
  | [], d => d
  | b :: bs, d => blit x0 (y0 + 1) bs (blitRow x0 (row y0) b d)

/-- `CLS` (R190). -/
def execCls (s : State) : Result := .next { s with fb := Framebuffer.blank }.advance

/-- `DRW Vx, Vy, N` (R191): the sprite is read before anything is written, and `VF` is written after `V[X]` and `V[Y]` were
read. `N = 0` reads and draws nothing and clears `VF`. -/
def execDrw (x y : Reg) (n : BitVec 4) (s : State) : Result :=
  match s.memRead s.base n.toNat with
  | .ok b =>
    let d := blit ((s.getReg x).toNat % 64) ((s.getReg y).toNat % 32) b (s.fb, false)
    .next ({ s with fb := d.1 }.setFlag d.2).advance
  | .error a => raiseBounds a (encode (.drw x y n)) s

end Sys2Proof.Machine
end

