-- ==== Sys2Proof/Machine/IndexMemory.lean ====
section
/-! DEFINITION. The index register and memory instructions of spec/43_index_memory.md. A range check comes before the first
write, so an error leaves every register, `I` and memory as they were (spec/20_memory.md R68). -/

namespace Sys2Proof.Machine

/-- `I <- (I + n) & 0x0FFF` under `Q_MEM_INCR_I`, else nothing (R186). -/
def State.bumpIndex (s : State) (n : Nat) : State :=
  if s.cfg.memIncrI then s.setI (s.i + BitVec.ofNat 16 n) else s

/-- `LD I, NNN` (R180). -/
def execLdI (nnn : Addr12) (s : State) : Result := .next (s.setI (addrOperand nnn)).advance

/-- `ADD I, Vx` (R181): wraps within 12 bits, no flag. -/
def execAddIVx (x : Reg) (s : State) : Result := .next (s.setI (s.i + (s.getReg x).setWidth 16)).advance

/-- `LD F, Vx` (R182): the address of the digit's sprite; no memory access. -/
def execLdFVx (x : Reg) (s : State) : Result := .next (s.setI (s.fontAddr (s.lowNibble x))).advance

/-- `LD B, Vx` (R183): three decimal digits at `I`, hundreds first. -/
def execLdBVx (x : Reg) (s : State) : Result :=
  match s.memWrite s.base (bcdDigits (s.getReg x)) with
  | .ok t => .next t.advance
  | .error a => raiseBounds a (encode (.ldBVx x)) s

/-- `LD [I], Vx` (R184): `V[0]..V[X]` to memory at `I`. -/
def execStRegs (x : Reg) (s : State) : Result :=
  match s.memWrite s.base (s.regBlock (blockSize x)) with
  | .ok t => .next (t.bumpIndex (blockSize x)).advance
  | .error a => raiseBounds a (encode (.stRegs x)) s

/-- `LD Vx, [I]` (R185): `V[0]..V[X]` from memory at `I`. -/
def execLdRegs (x : Reg) (s : State) : Result :=
  match s.memRead s.base (blockSize x) with
  | .ok b => .next ((s.setRegBlock 0 b).bumpIndex (blockSize x)).advance
  | .error a => raiseBounds a (encode (.ldRegs x)) s

end Sys2Proof.Machine
end

