-- ==== Sys2Proof/Machine/InputTimers.lean ====
section
/-! DEFINITION. The key and timer instructions of spec/45_input_timers.md. None is privileged and none can raise an error. -/

namespace Sys2Proof.Machine

/-- `SKP Vx` (R200): skip if the key named by the low nibble of `V[X]` is pressed. -/
def execSkp (x : Reg) (s : State) : Result := skipIf (s.keyDown (s.lowNibble x)) s

/-- `SKNP Vx` (R201): skip if it is not pressed. -/
def execSknp (x : Reg) (s : State) : Result := skipIf (!s.keyDown (s.lowNibble x)) s

/-- `LD Vx, DT` (R202). -/
def execLdVxDt (x : Reg) (s : State) : Result := .next (s.setReg x s.dt).advance

/-- `LD Vx, K` (R203), the step that fetches it: the wait starts, `pc` stays, no key is looked at. Its completion is the
key-wait poll of a later step (`State.keyWaitPoll`). -/
def execLdVxK (x : Reg) (s : State) : Result := .next { s with wait := true, waitX := x }

/-- `LD DT, Vx` (R204). -/
def execLdDtVx (x : Reg) (s : State) : Result := .next { s with dt := s.getReg x }.advance

/-- `LD ST, Vx` (R205). -/
def execLdStVx (x : Reg) (s : State) : Result := .next { s with st := s.getReg x }.advance

end Sys2Proof.Machine
end

