-- ==== Sys2Proof/Machine/Step.lean ====
section
/-! DEFINITION. The `Step` event (spec/40_execution_cycle.md R120). -/

namespace Sys2Proof.Machine

/-- One `Step` (R120): the halt check (R121), the key-wait poll (R122), fetch (R123), decode (R124), execute (R125). An
error of the fetch records the failing address and no word, an error of the decode `pc` and the word (R216). -/
def step (s : State) : Host.Outcome State Fault Refusal :=
  if s.halted then .next s
  else if s.wait then .next s.keyWaitPoll
  else
    match s.fetch with
    | .error a => raiseBounds a 0x0000#16 s
    | .ok w =>
      match decode w with
      | .error _ => raise .decodeError s.pc w s
      | .ok i => exec i s

/-- `s` with the instruction whose bits are `w` placed where the next step fetches. The engine must be neither halted nor
waiting and `pc` must name two bytes of memory, or the step would not fetch: the error latch of a halted state is cleared,
a pending wait is dropped, and a `pc` beyond 0xFFE is put back to 0x200 (log entry 6). At reset only memory changes. -/
def State.withFetchWord (s : State) (nbits w : Nat) : State :=
  let r : State := { s with
    err := if s.halted then ErrorLatch.clear else s.err
    wait := false
    pc := if s.pc.toNat ≤ 0xFFE then s.pc else 0x0200#16 }
  r.writeBytes r.pc.toNat (bytesOfWord (BitVec.ofNat 16 (w % 2 ^ nbits)))

end Sys2Proof.Machine
end

