-- ==== Sys2Proof/Machine/FrameDriver.lean ====
section
/-! DEFINITION. The events other than `Step` (spec/00_scope.md R9): `Reset(rom)`, `SetKeys`, `TimerTick`, `FrameOut`, and the
Frame Driver's `Tick` and its loop (spec/60_exceptions.md R225 to R232, spec/70_reset_and_hazards.md R250 to R252). -/

namespace Sys2Proof.Machine

/-- The largest ROM in bytes, 0x200..0xFFF (spec/00_scope.md R5 `ROM_MAX`, R252). -/
def romMax : Nat := 3584

/-- Where ROM bytes start and where execution starts (R5 `ROM_BASE`, R251, R253). -/
def romBase : Nat := 0x200

/-- `Reset(rom)` (R250): the whole state at its reset value, the ROM bytes in order from 0x200 (R251). A ROM of more than
3584 bytes is RomLoadError, and there is no machine (R252). The configuration is the environment's, so it stays; so does the
model's own count of random answers, which no reset rewinds (log entry 3). -/
def resetRom (rom : List Byte) (s : State) : Result :=
  if rom.length ≤ romMax then
    .next ({ State.reset with cfg := s.cfg, draws := s.draws }.writeBytes romBase rom)
  else
    .fault .romLoadError

/-- `SetKeys(k)` (R232): replaces all 16 flags, whether or not a key wait is pending; ignored while halted. -/
def setKeys (k : Word) (s : State) : State := if s.halted then s else { s with keys := k }

/-- One decrement toward zero, never below it (R225). -/
def countDown (t : Byte) : Byte := if t = 0x00#8 then t else t - 0x01#8

/-- `TimerTick` (R225, R228). -/
def timerTick (s : State) : State :=
  if s.halted then s
  else if s.cfg.keyWaitHaltsTimers && s.wait then s
  else { s with dt := countDown s.dt, st := countDown s.st }

/-- `FrameOut` (R230, R231): a copy of the display and `ST != 0`; nothing while halted (spec/10_state.md R32). -/
def frameOut (s : State) : State :=
  if s.halted then s else { s with frameOut := s.fb, soundOut := s.st != 0x00#8 }

/-- Phase (a) of a tick (R226): `n` steps, no further one once a step halts the machine. -/
def runSteps : Nat → State → Result
  | 0, s => .next s
  | n + 1, s =>
    if s.halted then .next s
    else
      match step s with
      | .next t => runSteps n t
      | .fault f => .fault f
      | .refused r => .refused r

/-- How a tick ended (R226, R130): completed, abandoned because the machine is halted, or the run ended by `STOP`. -/
inductive TickEnd where
  | completed
  | halted
  | stopped
  deriving DecidableEq, Repr

/-- Phases (b), (c), (d) of a tick (R226), in this order. -/
def finishTick (keysIn : Word) (s : State) : State := setKeys keysIn (frameOut (timerTick s))

/-- `Tick` (R226): `STOP` is looked at once, at the boundary, and ends the run with the state as it is; a halted machine
does (b), (c) and (d) no more (R218). -/
def tick (stop : Bool) (keysIn : Word) (s : State) : Host.Outcome (TickEnd × State) Fault Refusal :=
  if stop then .next (.stopped, s)
  else
    match runSteps s.cfg.stepsPerTick s with
    | .next t => if t.halted then .next (.halted, t) else .next (.completed, finishTick keysIn t)
    | .fault f => .fault f
    | .refused r => .refused r

/-- The Frame Driver's loop (R226, R130) over the inputs of the coming ticks, `STOP` and the keys captured at the end of
each: it runs until one tick does not complete or the inputs given are used up. -/
def drive : List (Bool × Word) → State → Host.Outcome (TickEnd × State) Fault Refusal
  | [], s => .next (.completed, s)
  | (stop, keysIn) :: rest, s =>
    match tick stop keysIn s with
    | .next (.completed, t) => drive rest t
    | .next (.halted, t) => .next (.halted, t)
    | .next (.stopped, t) => .next (.stopped, t)
    | .fault f => .fault f
    | .refused r => .refused r

/-- The events of the transition system (R9). -/
inductive Event where
  | reset (rom : List Byte)
  | setKeys (k : Word)
  | step
  | timerTick
  | frameOut
  | tick (stop : Bool) (keysIn : Word)
  deriving DecidableEq, Repr

/-- The effect of one event (R9: "Nothing else changes state"). -/
def fire (e : Event) (s : State) : Result :=
  match e with
  | .reset rom => resetRom rom s
  | .setKeys k => .next (Sys2Proof.Machine.setKeys k s)
  | .step => Sys2Proof.Machine.step s
  | .timerTick => .next (Sys2Proof.Machine.timerTick s)
  | .frameOut => .next (Sys2Proof.Machine.frameOut s)
  | .tick stop keysIn =>
    match Sys2Proof.Machine.tick stop keysIn s with
    | .next (_, t) => .next t
    | .fault f => .fault f
    | .refused r => .refused r

/-- A sequence of events, stopping where one has no next state: the environment may interleave them as it likes between
steps (R9, R128, R232). -/
def fireAll : List Event → State → Result
  | [], s => .next s
  | e :: es, s =>
    match fire e s with
    | .next t => fireAll es t
    | .fault f => .fault f
    | .refused r => .refused r

end Sys2Proof.Machine
end

