-- ==== Sys2Proof/Safety.lean ====
section
/-! DEFINITION. The terms in which claims are stated: the parts of the state and when one is unchanged, what each instruction
may write (spec/10_state.md R38), when it raises an error (spec/60_exceptions.md R212 to R216), and the invariants. -/

namespace Sys2Proof.Safety

open Sys2Proof.Machine

/-! ### Parts of the state, and frames -/

/-- The parts of the state, the columns of R38 with `CFG`, the outputs and the model's draw count beside them. -/
inductive Part where
  | regs
  | index
  | pc
  | stack
  | delayTimer
  | soundTimer
  | memory
  | display
  | keys
  | keyWait
  | errorLatch
  | outputs
  | draws
  | config
  deriving DecidableEq, Repr

/-- The part reads the same in `t` as in `s`; memory is compared through the read of one byte, at every address. -/
def Part.Same (p : Part) (s t : State) : Prop :=
  match p with
  | .regs => ∀ r, t.getReg r = s.getReg r
  | .index => t.i = s.i
  | .pc => t.pc = s.pc
  | .stack => t.sp = s.sp ∧ t.stack = s.stack
  | .delayTimer => t.dt = s.dt
  | .soundTimer => t.st = s.st
  | .memory => ∀ a, t.readByte a = s.readByte a
  | .display => ∀ x y, t.fb.pixel x y = s.fb.pixel x y
  | .keys => t.keys = s.keys
  | .keyWait => t.wait = s.wait ∧ t.waitX = s.waitX
  | .errorLatch => t.err = s.err
  | .outputs => t.frameOut = s.frameOut ∧ t.soundOut = s.soundOut
  | .draws => t.draws = s.draws
  | .config => t.cfg = s.cfg

/-- Every part but those named is unchanged. -/
def OnlyChanges (written : List Part) (s t : State) : Prop := ∀ p, p ∉ written → p.Same s t

/-- Every general register but those named is unchanged. -/
def OnlyRegs (written : Reg → Bool) (s t : State) : Prop := ∀ r, written r = false → t.getReg r = s.getReg r

/-- Every byte of memory outside the `n` bytes at `a` reads as before. -/
def OnlyBytes (a n : Nat) (s t : State) : Prop := ∀ b, b < a ∨ a + n ≤ b → t.readByte b = s.readByte b

/-! ### What an instruction may write (R38) -/

/-- The parts a variant may write when it completes, its `w` entries in R38 (`pc` for every variant but the start of a key
wait; the draw count, the model's own, for `RND`). -/
def partsWritten (c : Config) : Instr → List Part
  | .sys _ | .jp _ | .seImm _ _ | .sneImm _ _ | .seReg _ _ | .sneReg _ _ | .jpV0 _ | .skp _ | .sknp _ => [.pc]
  | .cls => [.pc, .display]
  | .ret | .call _ => [.pc, .stack]
  | .ldImm _ _ | .addImm _ _ | .ldReg _ _ | .orReg _ _ | .andReg _ _ | .xorReg _ _ | .addReg _ _ | .sub _ _
  | .shr _ _ | .subn _ _ | .shl _ _ | .ldVxDt _ => [.pc, .regs]
  | .rnd _ _ => [.pc, .regs, .draws]
  | .ldI _ | .addIVx _ | .ldFVx _ => [.pc, .index]
  | .drw _ _ _ => [.pc, .regs, .display]
  | .ldVxK _ => [.keyWait]
  | .ldDtVx _ => [.pc, .delayTimer]
  | .ldStVx _ => [.pc, .soundTimer]
  | .ldBVx _ => [.pc, .memory]
  | .stRegs _ => if c.memIncrI then [.pc, .memory, .index] else [.pc, .memory]
  | .ldRegs _ => if c.memIncrI then [.pc, .regs, .index] else [.pc, .regs]

/-- The general registers a variant may write when it completes (R38 columns V and VF; R22 for the flag). -/
def regWritten (c : Config) (i : Instr) (r : Reg) : Bool :=
  match i with
  | .ldImm x _ | .addImm x _ | .ldReg x _ | .rnd x _ | .ldVxDt x => r == x
  | .orReg x _ | .andReg x _ | .xorReg x _ => r == x || (c.logicResetsVF && r == vf)
  | .addReg x _ | .sub x _ | .shr x _ | .subn x _ | .shl x _ => r == x || r == vf
  | .drw _ _ _ => r == vf
  | .ldRegs x => decide (r.toNat ≤ x.toNat)
  | .sys _ | .cls | .ret | .jp _ | .call _ | .seImm _ _ | .sneImm _ _ | .seReg _ _ | .sneReg _ _ | .ldI _ | .jpV0 _
  | .skp _ | .sknp _ | .ldVxK _ | .ldDtVx _ | .ldStVx _ | .addIVx _ | .ldFVx _ | .ldBVx _ | .stRegs _ => false

/-- How many bytes at `I` a variant stores (spec/20_memory.md R60): 3, `X + 1`, or none. -/
def bytesStored : Instr → Nat
  | .ldBVx _ => 3
  | .stRegs x => x.toNat + 1
  | .sys _ | .cls | .ret | .jp _ | .call _ | .seImm _ _ | .sneImm _ _ | .seReg _ _ | .ldImm _ _ | .addImm _ _
  | .ldReg _ _ | .orReg _ _ | .andReg _ _ | .xorReg _ _ | .addReg _ _ | .sub _ _ | .shr _ _ | .subn _ _ | .shl _ _
  | .sneReg _ _ | .ldI _ | .jpV0 _ | .rnd _ _ | .drw _ _ _ | .skp _ | .sknp _ | .ldVxDt _ | .ldVxK _ | .ldDtVx _
  | .ldStVx _ | .addIVx _ | .ldFVx _ | .ldRegs _ => 0

/-- The whole frame of a completed instruction: only the parts of R38, only the registers of R38 and R22, only the bytes of
R60. -/
def Framed (i : Instr) (s t : State) : Prop :=
  OnlyChanges (partsWritten s.cfg i) s t ∧ OnlyRegs (regWritten s.cfg i) s t ∧ OnlyBytes s.base (bytesStored i) s t

/-! ### When an instruction raises an error (R212 to R217) -/

/-- The execute-time error of a variant in a state, with the address recorded, or none (R212, R213, R214, R215, R216). -/
def errorOf (i : Instr) (s : State) : Option (ErrorKind × Word) :=
  match i with
  | .call _ => if s.sp.val = 16 then some (.stackOverflow, s.pc) else none
  | .ret => if s.sp.val = 0 then some (.stackUnderflow, s.pc) else none
  | .drw _ _ n =>
    if 1 ≤ n.toNat ∧ 0xFFF < s.i.toNat + n.toNat - 1 then some (.memoryBoundsError, BitVec.ofNat 16 (max s.i.toNat 0x1000))
    else none
  | .ldBVx _ =>
    if 0xFFF < s.i.toNat + 2 then some (.memoryBoundsError, BitVec.ofNat 16 (max s.i.toNat 0x1000)) else none
  | .stRegs x | .ldRegs x =>
    if 0xFFF < s.i.toNat + x.toNat then some (.memoryBoundsError, BitVec.ofNat 16 (max s.i.toNat 0x1000)) else none
  | .sys _ | .cls | .jp _ | .seImm _ _ | .sneImm _ _ | .seReg _ _ | .ldImm _ _ | .addImm _ _ | .ldReg _ _ | .orReg _ _
  | .andReg _ _ | .xorReg _ _ | .addReg _ _ | .sub _ _ | .shr _ _ | .subn _ _ | .shl _ _ | .sneReg _ _ | .ldI _ | .jpV0 _
  | .rnd _ _ | .skp _ | .sknp _ | .ldVxDt _ | .ldVxK _ | .ldDtVx _ | .ldStVx _ | .addIVx _ | .ldFVx _ => none

/-! ### Frames of variants, and variants in sequence -/

/-- The frame of one variant: whenever it completes (no error of R212 to R214), it is framed. -/
def FrameHolds (i : Instr) : Prop := ∀ s t, errorOf i s = none → exec i s = .next t → Framed i s t

/-- Instructions executed one after the other, without fetching them. -/
def execAll : List Instr → State → Result
  | [], s => .next s
  | i :: is, s =>
    match exec i s with
    | .next t => execAll is t
    | .fault f => .fault f
    | .refused r => .refused r

/-- `t` is `s` after the entry into an error (R126, R127): `ERR` is written; `pc` stays under `halt` and moves past the word
under `permissive`; nothing else changes. -/
def ErrorTaken (kind : ErrorKind) (addr word : Word) (s t : State) : Prop :=
  t.err = ⟨kind, addr, word⟩ ∧
  (s.cfg.errorPolicy = .halt → t.pc = s.pc) ∧
  (s.cfg.errorPolicy = .permissive → t.pc = s.pc + 2#16) ∧
  OnlyChanges [.errorLatch, .pc] s t

/-! ### Invariants -/

/-- The memory is in its canonical form (log entry 4). -/
def MemoryCanonical (s : State) : Prop := Memory.wf s.cfg s.mem = true

/-- `I` is within 12 bits (R23). -/
def IndexMasked (s : State) : Prop := s.i.toNat ≤ 0xFFF

/-- While a key wait is pending, `pc` holds the address of the `LD Vx, K` whose register is `WAITX` (R31). -/
def WaitsAtKeyWait (s : State) : Prop := s.wait = true → s.fetch = .ok (encode (.ldVxK s.waitX))

/-- Under `halt`, `pc` never exceeds 0x10FE (the largest target of `JP V0`, R148) and no live return address exceeds 0x1000
(a `CALL` at 0xFFE, R141). -/
def PcBounded (s : State) : Prop :=
  s.cfg.errorPolicy = .halt →
    s.pc.toNat ≤ 0x10FE ∧ ∀ j : Fin 16, j.val < s.sp.val → (s.stack[j.val]'j.isLt).toNat ≤ 0x1000

/-- The invariant of the machine: everything above, and the one constraint on the configuration (R61). -/
structure Inv (s : State) : Prop where
  config : s.cfg.wf = true
  memory : MemoryCanonical s
  index : IndexMasked s
  waiting : WaitsAtKeyWait s
  bounded : PcBounded s

/-- Two states that differ at most in dead stack entries, those at `SP` and above (spec/10_state.md R25). -/
def SameButDeadStack (s t : State) : Prop :=
  t = { s with stack := t.stack } ∧ ∀ j : Fin 16, j.val < s.sp.val → t.stack[j.val]'j.isLt = s.stack[j.val]'j.isLt

end Sys2Proof.Safety
end

