-- ==== Sys2Proof/Certificates/Slice0/Obligations.lean ====
section
/-! DEFINITION. The statements for the provers, in the order of spec/: the decoder (30), the step and its errors (40, 60), the
instructions (41 to 45), the events (60, 70), the frames (10_state.md R38), the invariants. Each docstring says which rule it
formalises. The statement of an instruction
gives its word as well (the encoding line of its rule), and says that `exec` answers a next state, under hypotheses on the state
and the operands alone. -/

open Sys2Proof Sys2Proof.Machine Sys2Proof.Safety

/-! ### The decoder -/

/-- Words the spec writes out (R103 (a) to (c), spec/95_test_vectors.md 2.1), one or more of each format. -/
def Obligations.DecodeReadsTheWordsOfTheSpec : Prop :=
  decode 0x00E0#16 = .ok .cls ∧ decode 0x5123#16 = .error .decodeError ∧ decode 0x0000#16 = .ok (.sys 0x000#12) ∧
  decode 0x00EE#16 = .ok .ret ∧ decode 0x2ABC#16 = .ok (.call 0xABC#12) ∧
  decode 0x3A42#16 = .ok (.seImm 0xA#4 0x42#8) ∧ decode 0x8ABE#16 = .ok (.shl 0xA#4 0xB#4) ∧
  decode 0xD125#16 = .ok (.drw 0x1#4 0x2#4 0x5#4) ∧ decode 0xE1A1#16 = .ok (.sknp 0x1#4) ∧
  decode 0xF155#16 = .ok (.stRegs 0x1#4) ∧ decode 0xF175#16 = .error .decodeError

/-- R97, R103 (f): encoding a well-formed instruction and decoding it gives it back, every operand at every value; and on
bytes the decoder takes exactly the two bytes of the word (R90, R91). -/
def Obligations.DecodeOfEncodeIsTheInstruction : Prop :=
  ∀ i : Instr, i.wf = true →
    decode (encode i) = .ok i ∧ ∀ rest, decodeBytes (encodeBytes i ++ rest) = .ok (i, rest)

/-- R103 (f): no bit of a legal word is dropped by the decoder, so two legal words never give the same instruction; and what
it answers is well formed. -/
def Obligations.EncodeOfDecodeIsTheWord : Prop :=
  ∀ (w : Word) (i : Instr), decode w = .ok i → encode i = w ∧ i.wf = true

/-- The conditions of R98's table: the word does not decode exactly under one of its five rows. -/
def Obligations.DecodeFailsExactlyOnTheIllegalWords : Prop :=
  ∀ w : Word, decode w = .error .decodeError ↔
    (opField w = 0x5#4 ∧ nField w ≠ 0x0#4) ∨
    (opField w = 0x8#4 ∧ nField w ∈ [0x8#4, 0x9#4, 0xA#4, 0xB#4, 0xC#4, 0xD#4, 0xF#4]) ∨
    (opField w = 0x9#4 ∧ nField w ≠ 0x0#4) ∨
    (opField w = 0xE#4 ∧ nnField w ∉ [0x9E#8, 0xA1#8]) ∨
    (opField w = 0xF#4 ∧
      nnField w ∉ [0x07#8, 0x0A#8, 0x15#8, 0x18#8, 0x1E#8, 0x29#8, 0x33#8, 0x55#8, 0x65#8])

/-! ### The step and its errors -/

/-- R120, R125: with the engine neither halted nor waiting, when the two bytes at `pc` decode to `i`, the step is `exec i`;
nothing stands around it ("there is no separate increment after the rule"). -/
def Obligations.StepRunsTheDecodedInstruction : Prop :=
  ∀ (s : State) (i : Instr), s.halted = false → s.wait = false → s.pc.toNat ≤ 0xFFE →
    decode (wordOfBytes (s.readByte s.pc.toNat) (s.readByte (s.pc.toNat + 1))) = .ok i → step s = exec i s

/-- R121: under `halt`, once an error is latched a step changes nothing; under `permissive` there is no halted state. -/
def Obligations.HaltedStepChangesNothing : Prop :=
  ∀ s : State,
    (s.cfg.errorPolicy = .halt → s.err.kind ≠ .none → step s = .next s) ∧
    (s.cfg.errorPolicy = .permissive → s.halted = false)

/-- R122: a step while waiting does not fetch. No key down: nothing changes. Else the lowest key down goes to `V[WAITX]`,
the wait ends, `pc` moves on by 2, and nothing else changes. -/
def Obligations.KeyWaitPollTakesTheLowestKey : Prop :=
  ∀ s : State, s.halted = false → s.wait = true →
    (s.keys = 0x0000#16 → step s = .next s) ∧
    (∀ k : Nat, k < 16 → s.keys.getLsbD k = true → (∀ j < k, s.keys.getLsbD j = false) →
      ∃ t, step s = .next t ∧ (t.getReg s.waitX).toNat = k ∧ t.wait = false ∧ t.waitX = s.waitX ∧ t.pc = s.pc + 2#16 ∧
        (∀ r, r ≠ s.waitX → t.getReg r = s.getReg r) ∧ OnlyChanges [.pc, .regs, .keyWait] s t)

/-- R123 (with R64): the word fetched is `MEM[pc] * 256 + MEM[pc+1]`, whatever the parity of `pc`; beyond 0xFFE the step
raises MemoryBoundsError with `max(pc, 0x1000)` and the word 0. -/
def Obligations.FetchIsBigEndianAndBounded : Prop :=
  ∀ s : State,
    (s.pc.toNat ≤ 0xFFE → ∃ w, s.fetch = .ok w ∧
      w.toNat = (s.readByte s.pc.toNat).toNat * 256 + (s.readByte (s.pc.toNat + 1)).toNat) ∧
    (0xFFE < s.pc.toNat → s.fetch = .error (max s.pc.toNat 0x1000) ∧
      (s.halted = false → s.wait = false → ∃ t, step s = .next t ∧
        ErrorTaken .memoryBoundsError (BitVec.ofNat 16 (max s.pc.toNat 0x1000)) 0x0000#16 s t))

/-- R124, R211: a word that does not decode has no effect but the DecodeError, with `pc` and the word recorded. -/
def Obligations.UndecodableWordTakesDecodeError : Prop :=
  ∀ (s : State) (w : Word), s.halted = false → s.wait = false → s.fetch = .ok w → decode w = .error .decodeError →
    ∃ t, step s = .next t ∧ ErrorTaken .decodeError s.pc w s t

/-- R126: under `halt` an error writes `ERR` and nothing else, and the machine is halted. -/
def Obligations.ErrorUnderHaltWritesOnlyErr : Prop :=
  ∀ (s : State) (k : ErrorKind) (a w : Word), s.cfg.errorPolicy = .halt → k ≠ .none →
    ∃ t, raise k a w s = .next t ∧ t = { s with err := ⟨k, a, w⟩ } ∧ t.halted = true ∧ step t = .next t

/-- R127: under `permissive` an error writes `ERR`, moves `pc` on by 2, changes nothing else, and does not halt; the step
after it polls a key wait, or executes what it fetches, as if there had been no error. -/
def Obligations.ErrorUnderPermissiveMovesOn : Prop :=
  ∀ (s : State) (k : ErrorKind) (a w : Word), s.cfg.errorPolicy = .permissive →
    ∃ t, raise k a w s = .next t ∧ t = { s with err := ⟨k, a, w⟩, pc := s.pc + 2#16 } ∧ t.halted = false ∧
      (t.wait = true → step t = .next t.keyWaitPoll) ∧
      (∀ (w' : Word) (i : Instr), t.wait = false → t.fetch = .ok w' → decode w' = .ok i → step t = exec i t)

/-- R212 to R217: every variant in every state either raises exactly the error of the table, with the address of R62 and the
variant's own word recorded, or leaves the error latch alone. -/
def Obligations.ExecRaisesExactlyTheErrorsOfTheTable : Prop :=
  ∀ (i : Instr) (s : State), ∃ t, exec i s = .next t ∧
    match errorOf i s with
    | some (k, a) => ErrorTaken k a (encode i) s t
    | none => t.err = s.err

/-- R215: the variants listed there never raise an error, nor does the key-wait poll. -/
def Obligations.ListedVariantsNeverRaise : Prop :=
  (∀ (i : Instr) (s : State), i ≠ .ret → (∀ nnn, i ≠ .call nnn) → (∀ x y n, i ≠ .drw x y n) → (∀ x, i ≠ .ldBVx x) →
    (∀ x, i ≠ .stRegs x) → (∀ x, i ≠ .ldRegs x) → ∃ t, exec i s = .next t ∧ t.err = s.err) ∧
  (∀ s : State, s.keyWaitPoll.err = s.err)

/-- R130: no step stops the machine; what ends a run under `halt` is a next state too. -/
def Obligations.StepAlwaysAnswersANextState : Prop := ∀ s : State, ∃ t, step s = .next t

/-! ### Control flow -/

/-- R140: `SYS` changes nothing but `pc`. -/
def Obligations.SysIsANoOperation : Prop :=
  ∀ (nnn : Addr12) (s : State),
    (nnn ≠ 0x0E0#12 → nnn ≠ 0x0EE#12 → decode (0x0#4 ++ nnn) = .ok (.sys nnn)) ∧
    exec (.sys nnn) s = .next { s with pc := s.pc + 2#16 }

/-- R141: `RET` pops, unless the stack is empty, which is StackUnderflow. -/
def Obligations.RetPopsTheStack : Prop :=
  ∀ s : State,
    decode 0x00EE#16 = .ok .ret ∧
    (∀ h : s.sp.val ≠ 0, ∃ t, exec .ret s = .next t ∧ t.sp.val = s.sp.val - 1 ∧
      t.pc = s.stack[s.sp.val - 1]'(by omega) ∧ t.stack = s.stack ∧ OnlyChanges [.pc, .stack] s t) ∧
    (s.sp.val = 0 → ∃ t, exec .ret s = .next t ∧ ErrorTaken .stackUnderflow s.pc 0x00EE#16 s t)

/-- R143: `CALL` pushes the address after it and jumps, unless 16 entries are in use, which is StackOverflow. -/
def Obligations.CallPushesTheReturnAddress : Prop :=
  ∀ (nnn : Addr12) (s : State),
    decode (0x2#4 ++ nnn) = .ok (.call nnn) ∧
    (∀ h : s.sp.val < 16, ∃ t, exec (.call nnn) s = .next t ∧ t.sp.val = s.sp.val + 1 ∧
      t.stack[s.sp.val]'h = s.pc + 2#16 ∧
      (∀ j : Fin 16, j.val ≠ s.sp.val → t.stack[j.val]'j.isLt = s.stack[j.val]'j.isLt) ∧
      t.pc.toNat = nnn.toNat ∧ OnlyChanges [.pc, .stack] s t) ∧
    (s.sp.val = 16 → ∃ t, exec (.call nnn) s = .next t ∧ ErrorTaken .stackOverflow s.pc (encode (.call nnn)) s t)

/-- R141 with R143, read as 90_conflicts.md C3 says: N nested calls and N returns come back to the address after the first
call with the stack pointer as before, for every N the stack has room for. -/
def Obligations.NestedCallsReturnToTheFirst : Prop :=
  ∀ (targets : List Addr12) (s : State), targets ≠ [] → s.sp.val + targets.length ≤ 16 →
    ∃ t u, execAll (targets.map .call) s = .next t ∧ t.sp.val = s.sp.val + targets.length ∧
      execAll (List.replicate targets.length .ret) t = .next u ∧ u.sp = s.sp ∧ u.pc = s.pc + 2#16 ∧
      OnlyChanges [.pc, .stack] s u

/-- R142, R148: the target is `NNN`, or `NNN + V[0]` not reduced to 12 bits. -/
def Obligations.JumpsWriteTheTarget : Prop :=
  ∀ (nnn : Addr12) (s : State),
    decode (0x1#4 ++ nnn) = .ok (.jp nnn) ∧ decode (0xB#4 ++ nnn) = .ok (.jpV0 nnn) ∧
    (∃ t, exec (.jp nnn) s = .next t ∧ t.pc.toNat = nnn.toNat ∧ OnlyChanges [.pc] s t) ∧
    (∃ t, exec (.jpV0 nnn) s = .next t ∧ t.pc.toNat = nnn.toNat + (s.getReg 0x0#4).toNat ∧ OnlyChanges [.pc] s t)

/-- R144 to R147: `pc + 4` when the condition holds, else `pc + 2`, and nothing else. -/
def Obligations.SkipsPassOneInstruction : Prop :=
  ∀ (x y : Reg) (nn : Byte) (s : State),
    decode (0x3#4 ++ x ++ nn) = .ok (.seImm x nn) ∧ decode (0x4#4 ++ x ++ nn) = .ok (.sneImm x nn) ∧
    (∀ n : BitVec 4, decode (0x5#4 ++ x ++ y ++ n) = if n = 0x0#4 then .ok (.seReg x y) else .error .decodeError) ∧
    (∀ n : BitVec 4, decode (0x9#4 ++ x ++ y ++ n) = if n = 0x0#4 then .ok (.sneReg x y) else .error .decodeError) ∧
    (∃ t, exec (.seImm x nn) s = .next t ∧ t.pc = (if s.getReg x = nn then s.pc + 4#16 else s.pc + 2#16) ∧
      OnlyChanges [.pc] s t) ∧
    (∃ t, exec (.sneImm x nn) s = .next t ∧ t.pc = (if s.getReg x ≠ nn then s.pc + 4#16 else s.pc + 2#16) ∧
      OnlyChanges [.pc] s t) ∧
    (∃ t, exec (.seReg x y) s = .next t ∧ t.pc = (if s.getReg x = s.getReg y then s.pc + 4#16 else s.pc + 2#16) ∧
      OnlyChanges [.pc] s t) ∧
    (∃ t, exec (.sneReg x y) s = .next t ∧ t.pc = (if s.getReg x ≠ s.getReg y then s.pc + 4#16 else s.pc + 2#16) ∧
      OnlyChanges [.pc] s t)

/-! ### Registers, arithmetic, logic, shifts, random -/

/-- R160, R161, R162: load, add without a flag (`V[15]` only when it is the destination), copy. -/
def Obligations.LoadsAndAddImmediateWriteOneRegister : Prop :=
  ∀ (x y : Reg) (nn : Byte) (s : State),
    decode (0x6#4 ++ x ++ nn) = .ok (.ldImm x nn) ∧ decode (0x7#4 ++ x ++ nn) = .ok (.addImm x nn) ∧
    decode (0x8#4 ++ x ++ y ++ 0x0#4) = .ok (.ldReg x y) ∧
    (∃ t, exec (.ldImm x nn) s = .next t ∧ t.getReg x = nn ∧ (∀ r, r ≠ x → t.getReg r = s.getReg r) ∧
      t.pc = s.pc + 2#16 ∧ OnlyChanges [.pc, .regs] s t) ∧
    (∃ t, exec (.addImm x nn) s = .next t ∧ (t.getReg x).toNat = ((s.getReg x).toNat + nn.toNat) % 256 ∧
      (∀ r, r ≠ x → t.getReg r = s.getReg r) ∧ t.pc = s.pc + 2#16 ∧ OnlyChanges [.pc, .regs] s t) ∧
    (∃ t, exec (.ldReg x y) s = .next t ∧ t.getReg x = s.getReg y ∧ (∀ r, r ≠ x → t.getReg r = s.getReg r) ∧
      t.pc = s.pc + 2#16 ∧ OnlyChanges [.pc, .regs] s t)

/-- R163, R164, R165: bitwise, with `VF` cleared last only under `Q_LOGIC_RESETS_VF` (then a result in `V[15]` is lost). -/
def Obligations.LogicWritesTheResult : Prop :=
  ∀ (x y : Reg) (s : State),
    decode (0x8#4 ++ x ++ y ++ 0x1#4) = .ok (.orReg x y) ∧ decode (0x8#4 ++ x ++ y ++ 0x2#4) = .ok (.andReg x y) ∧
    decode (0x8#4 ++ x ++ y ++ 0x3#4) = .ok (.xorReg x y) ∧
    (∃ t, exec (.orReg x y) s = .next t ∧
      (∀ r, t.getReg r = if s.cfg.logicResetsVF = true ∧ r = vf then 0x00#8
        else if r = x then s.getReg x ||| s.getReg y else s.getReg r) ∧
      t.pc = s.pc + 2#16 ∧ OnlyChanges [.pc, .regs] s t) ∧
    (∃ t, exec (.andReg x y) s = .next t ∧
      (∀ r, t.getReg r = if s.cfg.logicResetsVF = true ∧ r = vf then 0x00#8
        else if r = x then s.getReg x &&& s.getReg y else s.getReg r) ∧
      t.pc = s.pc + 2#16 ∧ OnlyChanges [.pc, .regs] s t) ∧
    (∃ t, exec (.xorReg x y) s = .next t ∧
      (∀ r, t.getReg r = if s.cfg.logicResetsVF = true ∧ r = vf then 0x00#8
        else if r = x then s.getReg x ^^^ s.getReg y else s.getReg r) ∧
      t.pc = s.pc + 2#16 ∧ OnlyChanges [.pc, .regs] s t)

/-- R166, R173: the sum mod 256 in `V[X]` unless `X = 15`, the carry in `VF` always; `X = Y` and `Y = 15` included. -/
def Obligations.AddRegistersSetsCarry : Prop :=
  ∀ (x y : Reg) (s : State), decode (0x8#4 ++ x ++ y ++ 0x4#4) = .ok (.addReg x y) ∧ ∃ t, exec (.addReg x y) s = .next t ∧
    (x ≠ vf → (t.getReg x).toNat = ((s.getReg x).toNat + (s.getReg y).toNat) % 256) ∧
    t.getReg vf = (if (s.getReg x).toNat + (s.getReg y).toNat > 255 then 0x01#8 else 0x00#8) ∧
    (∀ r, r ≠ x → r ≠ vf → t.getReg r = s.getReg r) ∧ t.pc = s.pc + 2#16 ∧ OnlyChanges [.pc, .regs] s t

/-- R167, R169, R173: the difference mod 256 in `V[X]` unless `X = 15`, NOT borrow in `VF` always (equal operands give 1). -/
def Obligations.SubtractionsSetNotBorrow : Prop :=
  ∀ (x y : Reg) (s : State),
    decode (0x8#4 ++ x ++ y ++ 0x5#4) = .ok (.sub x y) ∧ decode (0x8#4 ++ x ++ y ++ 0x7#4) = .ok (.subn x y) ∧
    (∃ t, exec (.sub x y) s = .next t ∧
      (x ≠ vf → (t.getReg x).toNat = ((s.getReg x).toNat + 256 - (s.getReg y).toNat) % 256) ∧
      t.getReg vf = (if (s.getReg x).toNat ≥ (s.getReg y).toNat then 0x01#8 else 0x00#8) ∧
      (∀ r, r ≠ x → r ≠ vf → t.getReg r = s.getReg r) ∧ t.pc = s.pc + 2#16 ∧ OnlyChanges [.pc, .regs] s t) ∧
    (∃ t, exec (.subn x y) s = .next t ∧
      (x ≠ vf → (t.getReg x).toNat = ((s.getReg y).toNat + 256 - (s.getReg x).toNat) % 256) ∧
      t.getReg vf = (if (s.getReg y).toNat ≥ (s.getReg x).toNat then 0x01#8 else 0x00#8) ∧
      (∀ r, r ≠ x → r ≠ vf → t.getReg r = s.getReg r) ∧ t.pc = s.pc + 2#16 ∧ OnlyChanges [.pc, .regs] s t)

/-- R168, R170, R173: by one position, of `V[X]` or `V[Y]` as `Q_SHIFT_SRC` says, `VF` the bit shifted out. -/
def Obligations.ShiftsMoveByOne : Prop :=
  ∀ (x y : Reg) (s : State) (b : Byte), b = (if s.cfg.shiftSrc = .vx then s.getReg x else s.getReg y) →
    decode (0x8#4 ++ x ++ y ++ 0x6#4) = .ok (.shr x y) ∧ decode (0x8#4 ++ x ++ y ++ 0xE#4) = .ok (.shl x y) ∧
    (∃ t, exec (.shr x y) s = .next t ∧
      (x ≠ vf → (t.getReg x).toNat = b.toNat / 2) ∧ (t.getReg vf).toNat = b.toNat % 2 ∧
      (∀ r, r ≠ x → r ≠ vf → t.getReg r = s.getReg r) ∧ t.pc = s.pc + 2#16 ∧ OnlyChanges [.pc, .regs] s t) ∧
    (∃ t, exec (.shl x y) s = .next t ∧
      (x ≠ vf → (t.getReg x).toNat = 2 * b.toNat % 256) ∧ (t.getReg vf).toNat = b.toNat / 128 ∧
      (∀ r, r ≠ x → r ≠ vf → t.getReg r = s.getReg r) ∧ t.pc = s.pc + 2#16 ∧ OnlyChanges [.pc, .regs] s t)

/-- R171, R233: one answer of the randomness source, the free value at the count in State (log entry 3), masked; the count
moves on; a bit `NN` has as 0 is 0 afterwards, whatever the answer was. -/
def Obligations.RndMasksAFreshDraw : Prop :=
  ∀ (x : Reg) (nn : Byte) (s : State), decode (0xC#4 ++ x ++ nn) = .ok (.rnd x nn) ∧ ∃ t, exec (.rnd x nn) s = .next t ∧
    t.getReg x = Config.randByte s.draws &&& nn ∧ t.draws = s.draws + 1 ∧
    (∀ k, nn.getLsbD k = false → (t.getReg x).getLsbD k = false) ∧
    (∀ r, r ≠ x → t.getReg r = s.getReg r) ∧ t.pc = s.pc + 2#16 ∧ OnlyChanges [.pc, .regs, .draws] s t

/-- R129: a step takes at most one random answer, and takes one exactly when it executes `RND`. -/
def Obligations.OnlyRndTakesADraw : Prop :=
  ∀ s t : State, step s = .next t →
    (t.draws = s.draws + 1 ∧ s.halted = false ∧ s.wait = false ∧
      ∃ w x nn, s.fetch = .ok w ∧ decode w = .ok (.rnd x nn)) ∨
    (t.draws = s.draws ∧
      ¬ (s.halted = false ∧ s.wait = false ∧ ∃ w x nn, s.fetch = .ok w ∧ decode w = .ok (.rnd x nn)))

/-! ### Index register and memory -/

/-- R180, R181, R182 (with R23): `I` is `NNN`; `I + V[X]` within 12 bits, no flag; the sprite address of the low digit. -/
def Obligations.IndexInstructionsWriteI : Prop :=
  ∀ (x : Reg) (nnn : Addr12) (s : State),
    decode (0xA#4 ++ nnn) = .ok (.ldI nnn) ∧ decode (0xF#4 ++ x ++ 0x1E#8) = .ok (.addIVx x) ∧
    decode (0xF#4 ++ x ++ 0x29#8) = .ok (.ldFVx x) ∧
    (∃ t, exec (.ldI nnn) s = .next t ∧ t.i.toNat = nnn.toNat ∧ t.pc = s.pc + 2#16 ∧ OnlyChanges [.pc, .index] s t) ∧
    (∃ t, exec (.addIVx x) s = .next t ∧ t.i.toNat = (s.i.toNat + (s.getReg x).toNat) % 4096 ∧ t.pc = s.pc + 2#16 ∧
      OnlyChanges [.pc, .index] s t) ∧
    (s.cfg.wf = true → ∃ t, exec (.ldFVx x) s = .next t ∧
      t.i.toNat = s.cfg.fontBase + 5 * ((s.getReg x).toNat % 16) ∧ t.pc = s.pc + 2#16 ∧ OnlyChanges [.pc, .index] s t)

/-- R183: three decimal digits at `I`, hundreds first, `I` unchanged; or MemoryBoundsError with nothing written. -/
def Obligations.BcdStoresThreeDigits : Prop :=
  ∀ (x : Reg) (s : State), MemoryCanonical s →
    decode (0xF#4 ++ x ++ 0x33#8) = .ok (.ldBVx x) ∧
    (s.i.toNat + 2 ≤ 0xFFF → ∃ t, exec (.ldBVx x) s = .next t ∧
      (t.readByte s.i.toNat).toNat = (s.getReg x).toNat / 100 ∧
      (t.readByte (s.i.toNat + 1)).toNat = (s.getReg x).toNat / 10 % 10 ∧
      (t.readByte (s.i.toNat + 2)).toNat = (s.getReg x).toNat % 10 ∧
      OnlyBytes s.i.toNat 3 s t ∧ t.pc = s.pc + 2#16 ∧ OnlyChanges [.pc, .memory] s t) ∧
    (0xFFF < s.i.toNat + 2 → ∃ t, exec (.ldBVx x) s = .next t ∧
      ErrorTaken .memoryBoundsError (BitVec.ofNat 16 (max s.i.toNat 0x1000)) (encode (.ldBVx x)) s t)

/-- R184 (with R186): `V[j]` at `I + j` for `j = 0..X`, `I` moved only under `Q_MEM_INCR_I`; or MemoryBoundsError with nothing
written and `I` unchanged. -/
def Obligations.RegisterDumpStoresTheBlock : Prop :=
  ∀ (x : Reg) (s : State), MemoryCanonical s →
    decode (0xF#4 ++ x ++ 0x55#8) = .ok (.stRegs x) ∧
    (s.i.toNat + x.toNat ≤ 0xFFF → ∃ t, exec (.stRegs x) s = .next t ∧
      (∀ j : Reg, j.toNat ≤ x.toNat → t.readByte (s.i.toNat + j.toNat) = s.getReg j) ∧
      OnlyBytes s.i.toNat (x.toNat + 1) s t ∧
      (s.cfg.memIncrI = false → t.i = s.i) ∧
      (s.cfg.memIncrI = true → t.i.toNat = (s.i.toNat + x.toNat + 1) % 4096) ∧
      t.pc = s.pc + 2#16 ∧ OnlyChanges [.pc, .memory, .index] s t) ∧
    (0xFFF < s.i.toNat + x.toNat → ∃ t, exec (.stRegs x) s = .next t ∧
      ErrorTaken .memoryBoundsError (BitVec.ofNat 16 (max s.i.toNat 0x1000)) (encode (.stRegs x)) s t)

/-- R185 (with R186): `V[j]` from `I + j` for `j = 0..X`; or MemoryBoundsError with no register loaded and `I` unchanged. -/
def Obligations.RegisterLoadReadsTheBlock : Prop :=
  ∀ (x : Reg) (s : State),
    decode (0xF#4 ++ x ++ 0x65#8) = .ok (.ldRegs x) ∧
    (s.i.toNat + x.toNat ≤ 0xFFF → ∃ t, exec (.ldRegs x) s = .next t ∧
      (∀ j : Reg, j.toNat ≤ x.toNat → t.getReg j = s.readByte (s.i.toNat + j.toNat)) ∧
      (∀ j : Reg, x.toNat < j.toNat → t.getReg j = s.getReg j) ∧
      (s.cfg.memIncrI = false → t.i = s.i) ∧
      (s.cfg.memIncrI = true → t.i.toNat = (s.i.toNat + x.toNat + 1) % 4096) ∧
      t.pc = s.pc + 2#16 ∧ OnlyChanges [.pc, .regs, .index] s t) ∧
    (0xFFF < s.i.toNat + x.toNat → ∃ t, exec (.ldRegs x) s = .next t ∧
      ErrorTaken .memoryBoundsError (BitVec.ofNat 16 (max s.i.toNat 0x1000)) (encode (.ldRegs x)) s t)

/-- R73, R257: the bytes a dump stores at the next instruction's address are the word the next step fetches. -/
def Obligations.StoreIsSeenByTheNextFetch : Prop :=
  ∀ (s : State) (w : Word) (x : Reg), MemoryCanonical s → s.halted = false → s.wait = false → s.fetch = .ok w →
    decode w = .ok (.stRegs x) → 1 ≤ x.toNat → s.i = s.pc + 2#16 → s.i.toNat + x.toNat ≤ 0xFFF →
    ∃ t, step s = .next t ∧ t.fetch = .ok (wordOfBytes (s.getReg 0x0#4) (s.getReg 0x1#4))

/-! ### Display -/

/-- R190: every pixel unlit, `VF` not written. -/
def Obligations.ClsClearsEveryPixel : Prop :=
  ∀ s : State, decode 0x00E0#16 = .ok .cls ∧ ∃ t, exec .cls s = .next t ∧ (∀ x y, t.fb.pixel x y = false) ∧ t.pc = s.pc + 2#16 ∧
    OnlyChanges [.pc, .display] s t

/-- R191, R192: a pixel changes exactly when a 1 bit of the sprite lands on it, the coordinates taken mod 64 and mod 32 and
wrapping pixel by pixel; `VF` is 1 when a pixel went from lit to unlit and else 0; or MemoryBoundsError with nothing drawn and
`VF` not written. -/
def Obligations.DrawXorsTheSprite : Prop :=
  ∀ (x y : Reg) (n : BitVec 4) (s : State),
    decode (0xD#4 ++ x ++ y ++ n) = .ok (.drw x y n) ∧
    (n.toNat = 0 ∨ s.i.toNat + n.toNat - 1 ≤ 0xFFF → ∃ t, exec (.drw x y n) s = .next t ∧
      (∀ (u : Fin 64) (w : Fin 32), t.fb.pixel u w ≠ s.fb.pixel u w ↔
        ∃ r c : Nat, r < n.toNat ∧ c < 8 ∧ u.val = ((s.getReg x).toNat % 64 + c) % 64 ∧
          w.val = ((s.getReg y).toNat % 32 + r) % 32 ∧ (s.readByte (s.i.toNat + r)).getLsbD (7 - c) = true) ∧
      ((∃ u w, s.fb.pixel u w = true ∧ t.fb.pixel u w = false) → t.getReg vf = 0x01#8) ∧
      ((∀ u w, s.fb.pixel u w = true → t.fb.pixel u w = true) → t.getReg vf = 0x00#8) ∧
      (∀ r, r ≠ vf → t.getReg r = s.getReg r) ∧ t.pc = s.pc + 2#16 ∧ OnlyChanges [.pc, .regs, .display] s t) ∧
    (1 ≤ n.toNat → 0xFFF < s.i.toNat + n.toNat - 1 → ∃ t, exec (.drw x y n) s = .next t ∧
      ErrorTaken .memoryBoundsError (BitVec.ofNat 16 (max s.i.toNat 0x1000)) (encode (.drw x y n)) s t)

/-- The XOR self-inverse of R191's last paragraph: the same sprite drawn twice at the same place gives the display back. -/
def Obligations.DrawingTwiceRestoresTheDisplay : Prop :=
  ∀ (x y : Reg) (n : BitVec 4) (s : State), x ≠ vf → y ≠ vf → (n.toNat = 0 ∨ s.i.toNat + n.toNat - 1 ≤ 0xFFF) →
    ∃ t u, exec (.drw x y n) s = .next t ∧ exec (.drw x y n) t = .next u ∧ u.fb = s.fb ∧
      ((∀ a b, s.fb.pixel a b = false) → t.getReg vf = 0x00#8 ∧
        (u.getReg vf = 0x01#8 ↔ ∃ r k : Nat, r < n.toNat ∧ k < 8 ∧ (s.readByte (s.i.toNat + r)).getLsbD k = true))

/-! ### Keys and timers -/

/-- R200, R201: the key tested is the low nibble of `V[X]`. -/
def Obligations.KeySkipsTestTheNamedKey : Prop :=
  ∀ (x : Reg) (s : State),
    decode (0xE#4 ++ x ++ 0x9E#8) = .ok (.skp x) ∧ decode (0xE#4 ++ x ++ 0xA1#8) = .ok (.sknp x) ∧
    (∃ t, exec (.skp x) s = .next t ∧
      t.pc = (if s.keys.getLsbD ((s.getReg x).toNat % 16) = true then s.pc + 4#16 else s.pc + 2#16) ∧
      OnlyChanges [.pc] s t) ∧
    (∃ t, exec (.sknp x) s = .next t ∧
      t.pc = (if s.keys.getLsbD ((s.getReg x).toNat % 16) = false then s.pc + 4#16 else s.pc + 2#16) ∧
      OnlyChanges [.pc] s t)

/-- R203: the step that executes `LD Vx, K` sets the wait and looks at no key, `pc` unchanged; the next step of the engine,
if a key is down, loads the lowest one and moves on. -/
def Obligations.KeyWaitStartsAndCompletes : Prop :=
  ∀ (x : Reg) (s : State), decode (0xF#4 ++ x ++ 0x0A#8) = .ok (.ldVxK x) ∧ ∃ t, exec (.ldVxK x) s = .next t ∧ t.wait = true ∧
    t.waitX = x ∧ t.pc = s.pc ∧
    OnlyChanges [.keyWait] s t ∧
    (∀ k : Nat, s.halted = false → k < 16 → s.keys.getLsbD k = true → (∀ j < k, s.keys.getLsbD j = false) →
      ∃ u, step t = .next u ∧ (u.getReg x).toNat = k ∧ u.wait = false ∧ u.pc = s.pc + 2#16) ∧
    (s.halted = false → s.keys = 0x0000#16 → step t = .next t)

/-- R202, R204, R205. -/
def Obligations.TimerInstructionsMoveTheTimers : Prop :=
  ∀ (x : Reg) (s : State),
    decode (0xF#4 ++ x ++ 0x07#8) = .ok (.ldVxDt x) ∧ decode (0xF#4 ++ x ++ 0x15#8) = .ok (.ldDtVx x) ∧
    decode (0xF#4 ++ x ++ 0x18#8) = .ok (.ldStVx x) ∧
    (∃ t, exec (.ldVxDt x) s = .next t ∧ t.getReg x = s.dt ∧ (∀ r, r ≠ x → t.getReg r = s.getReg r) ∧
      t.pc = s.pc + 2#16 ∧ OnlyChanges [.pc, .regs] s t) ∧
    (∃ t, exec (.ldDtVx x) s = .next t ∧ t.dt = s.getReg x ∧ t.pc = s.pc + 2#16 ∧ OnlyChanges [.pc, .delayTimer] s t) ∧
    (∃ t, exec (.ldStVx x) s = .next t ∧ t.st = s.getReg x ∧ t.pc = s.pc + 2#16 ∧ OnlyChanges [.pc, .soundTimer] s t)

/-! ### The events -/

/-- R225: nothing while halted, nothing in a key wait under the quirk, else each timer one down if it is not 0. -/
def Obligations.TimerTickCountsDown : Prop :=
  ∀ s : State,
    (s.halted = true → timerTick s = s) ∧
    (s.cfg.keyWaitHaltsTimers = true → s.wait = true → timerTick s = s) ∧
    (s.halted = false → s.cfg.keyWaitHaltsTimers = false ∨ s.wait = false →
      (timerTick s).dt.toNat = s.dt.toNat - 1 ∧ (timerTick s).st.toNat = s.st.toNat - 1 ∧
      OnlyChanges [.delayTimer, .soundTimer] s (timerTick s))

/-- The source's property of R225: with no step in a tick, as many completed ticks as there are key vectors captured, one at
the end of each, take that many off each timer and stop at 0. -/
def Obligations.TicksWithoutStepsCountDown : Prop :=
  ∀ (ks : List Word) (s : State), s.halted = false → s.cfg.stepsPerTick = 0 →
    s.cfg.keyWaitHaltsTimers = false ∨ s.wait = false →
    ∃ t, drive (ks.map fun k => (false, k)) s = .next (.completed, t) ∧ t.dt.toNat = s.dt.toNat - ks.length ∧
      t.st.toNat = s.st.toNat - ks.length

/-- R231, R230, R232: `FrameOut` copies the display and `ST != 0` and does not change the display; `SetKeys` replaces the key
flags and has no other effect; while halted neither changes anything (R32, R232, log entry 10). -/
def Obligations.FrameOutAndSetKeysWriteTheirOwn : Prop :=
  ∀ (k : Word) (s : State),
    (s.halted = false →
      (∀ x y, (frameOut s).frameOut.pixel x y = s.fb.pixel x y) ∧ ((frameOut s).soundOut = true ↔ s.st ≠ 0x00#8) ∧
      OnlyChanges [.outputs] s (frameOut s) ∧ (setKeys k s).keys = k ∧ OnlyChanges [.keys] s (setKeys k s)) ∧
    (s.halted = true → frameOut s = s ∧ setKeys k s = s)

/-- R226: `STOP` ends the run with the state as it is; the step batch of `n` is the chain of `n` steps, or of fewer where one
halts the machine; a batch that halts ends the tick there; else the timers count down after the steps, then the outputs are
taken (the sound after the decrement, R230), then the keys captured. -/
def Obligations.TickRunsItsPhasesInOrder : Prop :=
  ∀ (k : Word) (s : State),
    (∀ (n m : Nat) (f : Nat → State), f 0 = s → m ≤ n →
      (∀ j < m, (f j).halted = false ∧ step (f j) = .next (f (j + 1))) → (m = n ∨ (f m).halted = true) →
      runSteps n s = .next (f m)) ∧
    tick true k s = .next (.stopped, s) ∧
    (∀ t, runSteps s.cfg.stepsPerTick s = .next t → t.halted = true → tick false k s = .next (.halted, t)) ∧
    (∀ t, runSteps s.cfg.stepsPerTick s = .next t → t.halted = false → ∃ u, tick false k s = .next (.completed, u) ∧
      u.dt = (timerTick t).dt ∧ u.st = (timerTick t).st ∧ u.frameOut = t.fb ∧
      (u.soundOut = true ↔ (timerTick t).st ≠ 0x00#8) ∧ u.keys = k ∧
      OnlyChanges [.delayTimer, .soundTimer, .outputs, .keys] t u)

/-- R223: the events of a tick outside its steps never change `pc`, `V`, `I`, the stack or memory. -/
def Obligations.TickEventsLeaveTheEngineAlone : Prop :=
  ∀ (k : Word) (s : State),
    OnlyChanges [.delayTimer, .soundTimer] s (timerTick s) ∧ OnlyChanges [.outputs] s (frameOut s) ∧
    OnlyChanges [.keys] s (setKeys k s)

/-- R250, R251, R252: what `Reset(rom)` leaves, whatever the state was; 3585 bytes and more are RomLoadError. The font lies
below 0x200, as R61 asks of the configuration. -/
def Obligations.ResetBuildsTheWholeState : Prop :=
  ∀ (rom : List Byte) (s : State), s.cfg.wf = true →
    (rom.length ≤ 3584 → ∃ t, resetRom rom s = .next t ∧
      (∀ r, t.getReg r = 0x00#8) ∧ t.i = 0x0000#16 ∧ t.pc = 0x0200#16 ∧ t.sp.val = 0 ∧
      (∀ j : Fin 16, t.stack[j.val]'j.isLt = 0x0000#16) ∧ t.dt = 0x00#8 ∧ t.st = 0x00#8 ∧
      (∀ j : Nat, j < rom.length → t.readByte (0x200 + j) = rom.getD j 0x00#8) ∧
      (∀ j : Fin 80, t.readByte (s.cfg.fontBase + j.val) = s.cfg.fontData[j.val]'j.isLt) ∧
      (∀ a : Nat, (a < s.cfg.fontBase ∨ s.cfg.fontBase + 80 ≤ a) → (a < 0x200 ∨ 0x200 + rom.length ≤ a) →
        t.readByte a = 0x00#8) ∧
      (∀ x y, t.fb.pixel x y = false) ∧ t.keys = 0x0000#16 ∧ t.wait = false ∧ t.waitX = 0x0#4 ∧
      t.err = ⟨.none, 0x0000#16, 0x0000#16⟩ ∧ (∀ x y, t.frameOut.pixel x y = false) ∧ t.soundOut = false ∧
      t.halted = false ∧ t.waitOut = false) ∧
    (3585 ≤ rom.length → resetRom rom s = .fault .romLoadError)

/-- R36, R37: the state after reset, every element of the table and every byte of the font's table written out. That the ROM
is the empty one and the configuration the default is the model's choice (log entry 7). -/
def Obligations.ResetStateHoldsTheValuesOfTheSpec : Prop :=
  (∀ r, State.reset.getReg r = 0x00#8) ∧ State.reset.i = 0x0000#16 ∧ State.reset.pc = 0x0200#16 ∧
  State.reset.sp.val = 0 ∧ (∀ j : Fin 16, State.reset.stack[j.val]'j.isLt = 0x0000#16) ∧
  State.reset.dt = 0x00#8 ∧ State.reset.st = 0x00#8 ∧
  (List.range 80).map (fun j => State.reset.readByte (0x050 + j)) =
    [0xF0#8, 0x90#8, 0x90#8, 0x90#8, 0xF0#8] ++ [0x20#8, 0x60#8, 0x20#8, 0x20#8, 0x70#8] ++
    [0xF0#8, 0x10#8, 0xF0#8, 0x80#8, 0xF0#8] ++ [0xF0#8, 0x10#8, 0xF0#8, 0x10#8, 0xF0#8] ++
    [0x90#8, 0x90#8, 0xF0#8, 0x10#8, 0x10#8] ++ [0xF0#8, 0x80#8, 0xF0#8, 0x10#8, 0xF0#8] ++
    [0xF0#8, 0x80#8, 0xF0#8, 0x90#8, 0xF0#8] ++ [0xF0#8, 0x10#8, 0x20#8, 0x40#8, 0x40#8] ++
    [0xF0#8, 0x90#8, 0xF0#8, 0x90#8, 0xF0#8] ++ [0xF0#8, 0x90#8, 0xF0#8, 0x10#8, 0xF0#8] ++
    [0xF0#8, 0x90#8, 0xF0#8, 0x90#8, 0x90#8] ++ [0xE0#8, 0x90#8, 0xE0#8, 0x90#8, 0xE0#8] ++
    [0xF0#8, 0x80#8, 0x80#8, 0x80#8, 0xF0#8] ++ [0xE0#8, 0x90#8, 0x90#8, 0x90#8, 0xE0#8] ++
    [0xF0#8, 0x80#8, 0xF0#8, 0x80#8, 0xF0#8] ++ [0xF0#8, 0x80#8, 0xF0#8, 0x80#8, 0x80#8] ∧
  (∀ a : Nat, a < 0x050 ∨ 0x0A0 ≤ a → State.reset.readByte a = 0x00#8) ∧
  (∀ x y, State.reset.fb.pixel x y = false) ∧ State.reset.keys = 0x0000#16 ∧
  State.reset.wait = false ∧ State.reset.waitX = 0x0#4 ∧ State.reset.err = ⟨.none, 0x0000#16, 0x0000#16⟩ ∧
  (∀ x y, State.reset.frameOut.pixel x y = false) ∧ State.reset.soundOut = false

/-- R220: only `Reset` leaves the halted state. While halted every other event changes nothing: `Step`, `TimerTick` and
`FrameOut` by R32, `SetKeys` by R232, a `Tick` by R218 and R226. That `FrameOut` and `SetKeys` issued on their own fall under
these rules is log entry 10 (DEDUCED). -/
def Obligations.OnlyResetLeavesTheHaltedState : Prop :=
  ∀ (e : Event) (s : State), s.halted = true → (∀ rom, e ≠ .reset rom) → fire e s = .next s

/-! ### Frames: what an instruction leaves unchanged (R38) -/

/-- The frame of every control flow instruction: only `pc`, and the stack for `CALL` and `RET`. -/
def Obligations.FrameOfControlFlow : Prop :=
  (∀ nnn, FrameHolds (.sys nnn)) ∧ FrameHolds .ret ∧ (∀ nnn, FrameHolds (.jp nnn)) ∧ (∀ nnn, FrameHolds (.call nnn)) ∧
  (∀ nnn, FrameHolds (.jpV0 nnn)) ∧ (∀ x nn, FrameHolds (.seImm x nn)) ∧ (∀ x nn, FrameHolds (.sneImm x nn)) ∧
  (∀ x y, FrameHolds (.seReg x y)) ∧ (∀ x y, FrameHolds (.sneReg x y))

/-- The frame of every register, arithmetic, logic, shift and random instruction. -/
def Obligations.FrameOfAlu : Prop :=
  (∀ x nn, FrameHolds (.ldImm x nn)) ∧ (∀ x nn, FrameHolds (.addImm x nn)) ∧ (∀ x y, FrameHolds (.ldReg x y)) ∧
  (∀ x y, FrameHolds (.orReg x y)) ∧ (∀ x y, FrameHolds (.andReg x y)) ∧ (∀ x y, FrameHolds (.xorReg x y)) ∧
  (∀ x y, FrameHolds (.addReg x y)) ∧ (∀ x y, FrameHolds (.sub x y)) ∧ (∀ x y, FrameHolds (.shr x y)) ∧
  (∀ x y, FrameHolds (.subn x y)) ∧ (∀ x y, FrameHolds (.shl x y)) ∧ (∀ x nn, FrameHolds (.rnd x nn))

/-- The frame of every index register and memory instruction: the bytes stored are the 3 or `X + 1` at `I`. -/
def Obligations.FrameOfIndexAndMemory : Prop :=
  (∀ nnn, FrameHolds (.ldI nnn)) ∧ (∀ x, FrameHolds (.addIVx x)) ∧ (∀ x, FrameHolds (.ldFVx x)) ∧
  (∀ x, FrameHolds (.ldBVx x)) ∧ (∀ x, FrameHolds (.stRegs x)) ∧ (∀ x, FrameHolds (.ldRegs x))

/-- The frame of the display, key and timer instructions. -/
def Obligations.FrameOfDisplayKeysAndTimers : Prop :=
  FrameHolds .cls ∧ (∀ x y n, FrameHolds (.drw x y n)) ∧ (∀ x, FrameHolds (.skp x)) ∧ (∀ x, FrameHolds (.sknp x)) ∧
  (∀ x, FrameHolds (.ldVxDt x)) ∧ (∀ x, FrameHolds (.ldVxK x)) ∧ (∀ x, FrameHolds (.ldDtVx x)) ∧
  (∀ x, FrameHolds (.ldStVx x))

/-! ### Rules about the whole machine -/

/-- R22, R173: after an instruction that defines the flag (`OR`, `AND`, `XOR` only under `Q_LOGIC_RESETS_VF`), completed,
`VF` is 0 or 1, never another value. -/
def Obligations.DefinedFlagIsZeroOrOne : Prop :=
  ∀ (i : Instr) (s t : State),
    (∃ x y, i = .addReg x y ∨ i = .sub x y ∨ i = .subn x y ∨ i = .shr x y ∨ i = .shl x y ∨ (∃ n, i = .drw x y n) ∨
      (s.cfg.logicResetsVF = true ∧ (i = .orReg x y ∨ i = .andReg x y ∨ i = .xorReg x y))) →
    errorOf i s = none → exec i s = .next t → t.getReg vf = 0x00#8 ∨ t.getReg vf = 0x01#8

/-- R30, R34, R71, R128: a step reads the keys as they stand and never writes them or the outputs. -/
def Obligations.StepLeavesKeysAndOutputs : Prop :=
  ∀ s t : State, step s = .next t → t.keys = s.keys ∧ t.frameOut = s.frameOut ∧ t.soundOut = s.soundOut

/-- R5: "A configuration parameter never changes during a run", over every sequence of events. -/
def Obligations.ConfigurationNeverChanges : Prop :=
  ∀ (es : List Event) (s t : State), fireAll es s = .next t → t.cfg = s.cfg

/-- R27: no instruction reads the sound timer, so two states that differ only in it step to states that differ only in it. -/
def Obligations.NoStepReadsTheSoundTimer : Prop :=
  ∀ (s t : State) (b : Byte), step s = .next t → ∃ u, step { s with st := b } = .next u ∧ u = { t with st := u.st }

/-- R25: stack entries at `SP` and above are dead; nothing a step does lets them be observed. -/
def Obligations.DeadStackEntriesAreUnobservable : Prop :=
  ∀ s s' t : State, SameButDeadStack s s' → step s = .next t → ∃ t', step s' = .next t' ∧ SameButDeadStack t t'

/-! ### Invariants -/

/-- The state after reset has the invariant. -/
def Obligations.ResetHasTheInvariant : Prop := Inv State.reset

/-- Every step keeps the invariant: memory canonical, `I` within 12 bits (R23), a pending wait at its `LD Vx, K` (R31), and
under `halt` `pc` at most 0x10FE with live return addresses at most 0x1000 (R24). -/
def Obligations.StepKeepsTheInvariant : Prop := ∀ s t : State, Inv s → step s = .next t → Inv t

/-- Every event keeps the invariant: `Reset` with any ROM, `SetKeys`, `TimerTick`, `FrameOut`, `Step`, and a whole `Tick`. -/
def Obligations.EveryEventKeepsTheInvariant : Prop :=
  ∀ (e : Event) (s t : State), Inv s → fire e s = .next t → Inv t
end

