-- ==== Sys2Proof/Laws/Decode.lean ====
section
/-! SUPPORT. What each field reads from a word put together from fields (spec/30_encoding.md R92, R93), and what a word is
that has given fields: the lemmas the round trips of the decoder rest on. -/

namespace Sys2Proof

/-! ### Taking a field from bits laid side by side -/

theorem extract_high {n m : Nat} (x : BitVec n) (y : BitVec m) (i k : Nat) :
    (x ++ y).extractLsb' (m + i) k = x.extractLsb' i k := by
  ext j hj
  simp only [BitVec.getElem_extractLsb', BitVec.getLsbD_append]
  rw [if_neg (by omega)]
  congr 1
  omega

theorem extract_low {n m : Nat} (x : BitVec n) (y : BitVec m) (i k : Nat) (h : i + k ≤ m) :
    (x ++ y).extractLsb' i k = y.extractLsb' i k := by
  ext j hj
  simp only [BitVec.getElem_extractLsb', BitVec.getLsbD_append]
  rw [if_pos (by omega)]

theorem extract_all {n : Nat} (x : BitVec n) : x.extractLsb' 0 n = x := by simp

theorem extract_join {k : Nat} (w : BitVec k) (i m n : Nat) :
    w.extractLsb' (i + m) n ++ w.extractLsb' i m = w.extractLsb' i (n + m) := by
  ext j hj
  simp only [BitVec.getElem_append, BitVec.getElem_extractLsb']
  split
  · rfl
  · congr 1
    omega

theorem and_join {n m : Nat} (x p : BitVec n) (y q : BitVec m) : (x ++ y) &&& (p ++ q) = (x &&& p) ++ (y &&& q) := by
  ext j hj
  simp only [BitVec.getElem_and, BitVec.getElem_append]
  split <;> rfl

/-! ### Fields of a word built from fields -/

@[simp] theorem opField_addr (a : BitVec 4) (n : Addr12) : opField (a ++ n) = a :=
  (extract_high a n 0 4).trans (extract_all a)

@[simp] theorem nnnField_addr (a : BitVec 4) (n : Addr12) : nnnField (a ++ n) = n :=
  (extract_low a n 0 12 (by decide)).trans (extract_all n)

@[simp] theorem opField_reg_byte (a x : BitVec 4) (n : Byte) : opField (a ++ x ++ n) = a :=
  (extract_high (a ++ x) n 4 4).trans ((extract_high a x 0 4).trans (extract_all a))

@[simp] theorem xField_reg_byte (a x : BitVec 4) (n : Byte) : xField (a ++ x ++ n) = x :=
  (extract_high (a ++ x) n 0 4).trans ((extract_low a x 0 4 (by decide)).trans (extract_all x))

@[simp] theorem nnField_reg_byte (a x : BitVec 4) (n : Byte) : nnField (a ++ x ++ n) = n :=
  (extract_low (a ++ x) n 0 8 (by decide)).trans (extract_all n)

@[simp] theorem opField_nibbles (a x y n : BitVec 4) : opField (a ++ x ++ y ++ n) = a :=
  (extract_high (a ++ x ++ y) n 8 4).trans
    ((extract_high (a ++ x) y 4 4).trans ((extract_high a x 0 4).trans (extract_all a)))

@[simp] theorem xField_nibbles (a x y n : BitVec 4) : xField (a ++ x ++ y ++ n) = x :=
  (extract_high (a ++ x ++ y) n 4 4).trans
    ((extract_high (a ++ x) y 0 4).trans ((extract_low a x 0 4 (by decide)).trans (extract_all x)))

@[simp] theorem yField_nibbles (a x y n : BitVec 4) : yField (a ++ x ++ y ++ n) = y :=
  (extract_high (a ++ x ++ y) n 0 4).trans ((extract_low (a ++ x) y 0 4 (by decide)).trans (extract_all y))

@[simp] theorem nField_nibbles (a x y n : BitVec 4) : nField (a ++ x ++ y ++ n) = n :=
  (extract_low (a ++ x ++ y) n 0 4 (by decide)).trans (extract_all n)

/-! ### A word from its fields -/

theorem word_of_addr (w : Word) : (opField w ++ nnnField w : Word) = w :=
  (extract_join w 0 12 4).trans (extract_all w)

theorem word_of_reg_byte (w : Word) : (opField w ++ xField w ++ nnField w : Word) = w :=
  (congrArg (fun u : BitVec 8 => (u ++ nnField w : Word)) (extract_join w 8 4 4)).trans
    ((extract_join w 0 8 8).trans (extract_all w))

theorem word_of_nibbles (w : Word) : (opField w ++ xField w ++ yField w ++ nField w : Word) = w :=
  (congrArg (fun u : BitVec 8 => (u ++ yField w ++ nField w : Word)) (extract_join w 8 4 4)).trans
    ((congrArg (fun u : BitVec 12 => (u ++ nField w : Word)) (extract_join w 4 4 8)).trans
      ((extract_join w 0 4 12).trans (extract_all w)))

/-- The two bytes of a word, put together again. -/
theorem wordOfBytes_bytesOfWord (w : Word) :
    wordOfBytes ((bytesOfWord w).getD 0 0x00#8) ((bytesOfWord w).getD 1 0x00#8) = w :=
  (extract_join w 0 8 8).trans (extract_all w)

/-! ### Fixed bits under the masks of R96 -/

theorem and_ones4 : ∀ a : BitVec 4, a &&& 0xF#4 = a := by decide

theorem and_ones8 (a : Byte) : a &&& 0xFF#8 = a := BitVec.and_allOnes (x := a)

theorem mask_addr (a : BitVec 4) (n : Addr12) : (a ++ n : Word) &&& 0xF000#16 = (a ++ 0x000#12 : Word) :=
  (and_join a 0xF#4 n 0x000#12).trans (by rw [and_ones4, BitVec.and_zero])

theorem mask_reg_byte (a x : BitVec 4) (n : Byte) : (a ++ x ++ n : Word) &&& 0xF000#16 = (a ++ 0x0#4 ++ 0x00#8 : Word) :=
  (and_join (a ++ x) (0xF#4 ++ 0x0#4) n 0x00#8).trans (by rw [and_join, and_ones4, BitVec.and_zero, BitVec.and_zero])

theorem mask_reg_reg (a x y n : BitVec 4) :
    (a ++ x ++ y ++ n : Word) &&& 0xF00F#16 = (a ++ 0x0#4 ++ 0x0#4 ++ n : Word) :=
  (and_join (a ++ x ++ y) (0xF#4 ++ 0x0#4 ++ 0x0#4) n 0xF#4).trans
    (by rw [and_join, and_join, and_ones4, and_ones4, BitVec.and_zero, BitVec.and_zero])

theorem mask_reg_reg_nibble (a x y n : BitVec 4) :
    (a ++ x ++ y ++ n : Word) &&& 0xF000#16 = (a ++ 0x0#4 ++ 0x0#4 ++ 0x0#4 : Word) :=
  (and_join (a ++ x ++ y) (0xF#4 ++ 0x0#4 ++ 0x0#4) n 0x0#4).trans
    (by rw [and_join, and_join, and_ones4, BitVec.and_zero, BitVec.and_zero, BitVec.and_zero])

theorem mask_reg (a x : BitVec 4) (n : Byte) : (a ++ x ++ n : Word) &&& 0xF0FF#16 = (a ++ 0x0#4 ++ n : Word) :=
  (and_join (a ++ x) (0xF#4 ++ 0x0#4) n 0xFF#8).trans (by rw [and_join, and_ones4, and_ones8, BitVec.and_zero])

end Sys2Proof
end

