-- ==== Sys2Proof/Laws/State.lean ====
section
/-! SUPPORT. One lemma for each field of State under each named update, so that no proof unfolds a record update: the
updates that write one part leave every other field as it is. -/

namespace Sys2Proof.Machine

/-! ### `setReg` -/

@[simp] theorem State.setReg_v (s : State) (x : Reg) (b : Byte) : (s.setReg x b).v = s.v.set x.toNat b x.isLt := rfl
@[simp] theorem State.setReg_i (s : State) (x : Reg) (b : Byte) : (s.setReg x b).i = s.i := rfl
@[simp] theorem State.setReg_pc (s : State) (x : Reg) (b : Byte) : (s.setReg x b).pc = s.pc := rfl
@[simp] theorem State.setReg_sp (s : State) (x : Reg) (b : Byte) : (s.setReg x b).sp = s.sp := rfl
@[simp] theorem State.setReg_stack (s : State) (x : Reg) (b : Byte) : (s.setReg x b).stack = s.stack := rfl
@[simp] theorem State.setReg_dt (s : State) (x : Reg) (b : Byte) : (s.setReg x b).dt = s.dt := rfl
@[simp] theorem State.setReg_st (s : State) (x : Reg) (b : Byte) : (s.setReg x b).st = s.st := rfl
@[simp] theorem State.setReg_mem (s : State) (x : Reg) (b : Byte) : (s.setReg x b).mem = s.mem := rfl
@[simp] theorem State.setReg_fb (s : State) (x : Reg) (b : Byte) : (s.setReg x b).fb = s.fb := rfl
@[simp] theorem State.setReg_keys (s : State) (x : Reg) (b : Byte) : (s.setReg x b).keys = s.keys := rfl
@[simp] theorem State.setReg_wait (s : State) (x : Reg) (b : Byte) : (s.setReg x b).wait = s.wait := rfl
@[simp] theorem State.setReg_waitX (s : State) (x : Reg) (b : Byte) : (s.setReg x b).waitX = s.waitX := rfl
@[simp] theorem State.setReg_err (s : State) (x : Reg) (b : Byte) : (s.setReg x b).err = s.err := rfl
@[simp] theorem State.setReg_frameOut (s : State) (x : Reg) (b : Byte) : (s.setReg x b).frameOut = s.frameOut := rfl
@[simp] theorem State.setReg_soundOut (s : State) (x : Reg) (b : Byte) : (s.setReg x b).soundOut = s.soundOut := rfl
@[simp] theorem State.setReg_draws (s : State) (x : Reg) (b : Byte) : (s.setReg x b).draws = s.draws := rfl
@[simp] theorem State.setReg_cfg (s : State) (x : Reg) (b : Byte) : (s.setReg x b).cfg = s.cfg := rfl

/-! ### `setI` -/

@[simp] theorem State.setI_v (s : State) (a : Word) : (s.setI a).v = s.v := rfl
@[simp] theorem State.setI_i (s : State) (a : Word) : (s.setI a).i = a &&& 0x0FFF#16 := rfl
@[simp] theorem State.setI_pc (s : State) (a : Word) : (s.setI a).pc = s.pc := rfl
@[simp] theorem State.setI_sp (s : State) (a : Word) : (s.setI a).sp = s.sp := rfl
@[simp] theorem State.setI_stack (s : State) (a : Word) : (s.setI a).stack = s.stack := rfl
@[simp] theorem State.setI_dt (s : State) (a : Word) : (s.setI a).dt = s.dt := rfl
@[simp] theorem State.setI_st (s : State) (a : Word) : (s.setI a).st = s.st := rfl
@[simp] theorem State.setI_mem (s : State) (a : Word) : (s.setI a).mem = s.mem := rfl
@[simp] theorem State.setI_fb (s : State) (a : Word) : (s.setI a).fb = s.fb := rfl
@[simp] theorem State.setI_keys (s : State) (a : Word) : (s.setI a).keys = s.keys := rfl
@[simp] theorem State.setI_wait (s : State) (a : Word) : (s.setI a).wait = s.wait := rfl
@[simp] theorem State.setI_waitX (s : State) (a : Word) : (s.setI a).waitX = s.waitX := rfl
@[simp] theorem State.setI_err (s : State) (a : Word) : (s.setI a).err = s.err := rfl
@[simp] theorem State.setI_frameOut (s : State) (a : Word) : (s.setI a).frameOut = s.frameOut := rfl
@[simp] theorem State.setI_soundOut (s : State) (a : Word) : (s.setI a).soundOut = s.soundOut := rfl
@[simp] theorem State.setI_draws (s : State) (a : Word) : (s.setI a).draws = s.draws := rfl
@[simp] theorem State.setI_cfg (s : State) (a : Word) : (s.setI a).cfg = s.cfg := rfl

/-! ### `jump` -/

@[simp] theorem State.jump_v (s : State) (a : Word) : (s.jump a).v = s.v := rfl
@[simp] theorem State.jump_i (s : State) (a : Word) : (s.jump a).i = s.i := rfl
@[simp] theorem State.jump_pc (s : State) (a : Word) : (s.jump a).pc = a := rfl
@[simp] theorem State.jump_sp (s : State) (a : Word) : (s.jump a).sp = s.sp := rfl
@[simp] theorem State.jump_stack (s : State) (a : Word) : (s.jump a).stack = s.stack := rfl
@[simp] theorem State.jump_dt (s : State) (a : Word) : (s.jump a).dt = s.dt := rfl
@[simp] theorem State.jump_st (s : State) (a : Word) : (s.jump a).st = s.st := rfl
@[simp] theorem State.jump_mem (s : State) (a : Word) : (s.jump a).mem = s.mem := rfl
@[simp] theorem State.jump_fb (s : State) (a : Word) : (s.jump a).fb = s.fb := rfl
@[simp] theorem State.jump_keys (s : State) (a : Word) : (s.jump a).keys = s.keys := rfl
@[simp] theorem State.jump_wait (s : State) (a : Word) : (s.jump a).wait = s.wait := rfl
@[simp] theorem State.jump_waitX (s : State) (a : Word) : (s.jump a).waitX = s.waitX := rfl
@[simp] theorem State.jump_err (s : State) (a : Word) : (s.jump a).err = s.err := rfl
@[simp] theorem State.jump_frameOut (s : State) (a : Word) : (s.jump a).frameOut = s.frameOut := rfl
@[simp] theorem State.jump_soundOut (s : State) (a : Word) : (s.jump a).soundOut = s.soundOut := rfl
@[simp] theorem State.jump_draws (s : State) (a : Word) : (s.jump a).draws = s.draws := rfl
@[simp] theorem State.jump_cfg (s : State) (a : Word) : (s.jump a).cfg = s.cfg := rfl

/-! ### `advance` -/

@[simp] theorem State.advance_v (s : State) : (s.advance).v = s.v := rfl
@[simp] theorem State.advance_i (s : State) : (s.advance).i = s.i := rfl
@[simp] theorem State.advance_pc (s : State) : (s.advance).pc = s.pc + 2#16 := rfl
@[simp] theorem State.advance_sp (s : State) : (s.advance).sp = s.sp := rfl
@[simp] theorem State.advance_stack (s : State) : (s.advance).stack = s.stack := rfl
@[simp] theorem State.advance_dt (s : State) : (s.advance).dt = s.dt := rfl
@[simp] theorem State.advance_st (s : State) : (s.advance).st = s.st := rfl
@[simp] theorem State.advance_mem (s : State) : (s.advance).mem = s.mem := rfl
@[simp] theorem State.advance_fb (s : State) : (s.advance).fb = s.fb := rfl
@[simp] theorem State.advance_keys (s : State) : (s.advance).keys = s.keys := rfl
@[simp] theorem State.advance_wait (s : State) : (s.advance).wait = s.wait := rfl
@[simp] theorem State.advance_waitX (s : State) : (s.advance).waitX = s.waitX := rfl
@[simp] theorem State.advance_err (s : State) : (s.advance).err = s.err := rfl
@[simp] theorem State.advance_frameOut (s : State) : (s.advance).frameOut = s.frameOut := rfl
@[simp] theorem State.advance_soundOut (s : State) : (s.advance).soundOut = s.soundOut := rfl
@[simp] theorem State.advance_draws (s : State) : (s.advance).draws = s.draws := rfl
@[simp] theorem State.advance_cfg (s : State) : (s.advance).cfg = s.cfg := rfl

/-! ### `skip` -/

@[simp] theorem State.skip_v (s : State) : (s.skip).v = s.v := rfl
@[simp] theorem State.skip_i (s : State) : (s.skip).i = s.i := rfl
@[simp] theorem State.skip_pc (s : State) : (s.skip).pc = s.pc + 4#16 := rfl
@[simp] theorem State.skip_sp (s : State) : (s.skip).sp = s.sp := rfl
@[simp] theorem State.skip_stack (s : State) : (s.skip).stack = s.stack := rfl
@[simp] theorem State.skip_dt (s : State) : (s.skip).dt = s.dt := rfl
@[simp] theorem State.skip_st (s : State) : (s.skip).st = s.st := rfl
@[simp] theorem State.skip_mem (s : State) : (s.skip).mem = s.mem := rfl
@[simp] theorem State.skip_fb (s : State) : (s.skip).fb = s.fb := rfl
@[simp] theorem State.skip_keys (s : State) : (s.skip).keys = s.keys := rfl
@[simp] theorem State.skip_wait (s : State) : (s.skip).wait = s.wait := rfl
@[simp] theorem State.skip_waitX (s : State) : (s.skip).waitX = s.waitX := rfl
@[simp] theorem State.skip_err (s : State) : (s.skip).err = s.err := rfl
@[simp] theorem State.skip_frameOut (s : State) : (s.skip).frameOut = s.frameOut := rfl
@[simp] theorem State.skip_soundOut (s : State) : (s.skip).soundOut = s.soundOut := rfl
@[simp] theorem State.skip_draws (s : State) : (s.skip).draws = s.draws := rfl
@[simp] theorem State.skip_cfg (s : State) : (s.skip).cfg = s.cfg := rfl

/-! ### `writeByte` -/

@[simp] theorem State.writeByte_v (s : State) (a : Nat) (b : Byte) : (s.writeByte a b).v = s.v := rfl
@[simp] theorem State.writeByte_i (s : State) (a : Nat) (b : Byte) : (s.writeByte a b).i = s.i := rfl
@[simp] theorem State.writeByte_pc (s : State) (a : Nat) (b : Byte) : (s.writeByte a b).pc = s.pc := rfl
@[simp] theorem State.writeByte_sp (s : State) (a : Nat) (b : Byte) : (s.writeByte a b).sp = s.sp := rfl
@[simp] theorem State.writeByte_stack (s : State) (a : Nat) (b : Byte) : (s.writeByte a b).stack = s.stack := rfl
@[simp] theorem State.writeByte_dt (s : State) (a : Nat) (b : Byte) : (s.writeByte a b).dt = s.dt := rfl
@[simp] theorem State.writeByte_st (s : State) (a : Nat) (b : Byte) : (s.writeByte a b).st = s.st := rfl
@[simp] theorem State.writeByte_mem (s : State) (a : Nat) (b : Byte) : (s.writeByte a b).mem = Memory.write s.cfg s.mem a b := rfl
@[simp] theorem State.writeByte_fb (s : State) (a : Nat) (b : Byte) : (s.writeByte a b).fb = s.fb := rfl
@[simp] theorem State.writeByte_keys (s : State) (a : Nat) (b : Byte) : (s.writeByte a b).keys = s.keys := rfl
@[simp] theorem State.writeByte_wait (s : State) (a : Nat) (b : Byte) : (s.writeByte a b).wait = s.wait := rfl
@[simp] theorem State.writeByte_waitX (s : State) (a : Nat) (b : Byte) : (s.writeByte a b).waitX = s.waitX := rfl
@[simp] theorem State.writeByte_err (s : State) (a : Nat) (b : Byte) : (s.writeByte a b).err = s.err := rfl
@[simp] theorem State.writeByte_frameOut (s : State) (a : Nat) (b : Byte) : (s.writeByte a b).frameOut = s.frameOut := rfl
@[simp] theorem State.writeByte_soundOut (s : State) (a : Nat) (b : Byte) : (s.writeByte a b).soundOut = s.soundOut := rfl
@[simp] theorem State.writeByte_draws (s : State) (a : Nat) (b : Byte) : (s.writeByte a b).draws = s.draws := rfl
@[simp] theorem State.writeByte_cfg (s : State) (a : Nat) (b : Byte) : (s.writeByte a b).cfg = s.cfg := rfl

/-! ### `setFlag` -/

@[simp] theorem State.setFlag_v (s : State) (f : Bool) : (s.setFlag f).v = s.v.set 15 (flagByte f) := rfl
@[simp] theorem State.setFlag_i (s : State) (f : Bool) : (s.setFlag f).i = s.i := rfl
@[simp] theorem State.setFlag_pc (s : State) (f : Bool) : (s.setFlag f).pc = s.pc := rfl
@[simp] theorem State.setFlag_sp (s : State) (f : Bool) : (s.setFlag f).sp = s.sp := rfl
@[simp] theorem State.setFlag_stack (s : State) (f : Bool) : (s.setFlag f).stack = s.stack := rfl
@[simp] theorem State.setFlag_dt (s : State) (f : Bool) : (s.setFlag f).dt = s.dt := rfl
@[simp] theorem State.setFlag_st (s : State) (f : Bool) : (s.setFlag f).st = s.st := rfl
@[simp] theorem State.setFlag_mem (s : State) (f : Bool) : (s.setFlag f).mem = s.mem := rfl
@[simp] theorem State.setFlag_fb (s : State) (f : Bool) : (s.setFlag f).fb = s.fb := rfl
@[simp] theorem State.setFlag_keys (s : State) (f : Bool) : (s.setFlag f).keys = s.keys := rfl
@[simp] theorem State.setFlag_wait (s : State) (f : Bool) : (s.setFlag f).wait = s.wait := rfl
@[simp] theorem State.setFlag_waitX (s : State) (f : Bool) : (s.setFlag f).waitX = s.waitX := rfl
@[simp] theorem State.setFlag_err (s : State) (f : Bool) : (s.setFlag f).err = s.err := rfl
@[simp] theorem State.setFlag_frameOut (s : State) (f : Bool) : (s.setFlag f).frameOut = s.frameOut := rfl
@[simp] theorem State.setFlag_soundOut (s : State) (f : Bool) : (s.setFlag f).soundOut = s.soundOut := rfl
@[simp] theorem State.setFlag_draws (s : State) (f : Bool) : (s.setFlag f).draws = s.draws := rfl
@[simp] theorem State.setFlag_cfg (s : State) (f : Bool) : (s.setFlag f).cfg = s.cfg := rfl

/-! ### `setWithFlag` -/

@[simp] theorem State.setWithFlag_v (s : State) (x : Reg) (b : Byte) (f : Bool) : (s.setWithFlag x b f).v = (s.v.set x.toNat b x.isLt).set 15 (flagByte f) := rfl
@[simp] theorem State.setWithFlag_i (s : State) (x : Reg) (b : Byte) (f : Bool) : (s.setWithFlag x b f).i = s.i := rfl
@[simp] theorem State.setWithFlag_pc (s : State) (x : Reg) (b : Byte) (f : Bool) : (s.setWithFlag x b f).pc = s.pc := rfl
@[simp] theorem State.setWithFlag_sp (s : State) (x : Reg) (b : Byte) (f : Bool) : (s.setWithFlag x b f).sp = s.sp := rfl
@[simp] theorem State.setWithFlag_stack (s : State) (x : Reg) (b : Byte) (f : Bool) : (s.setWithFlag x b f).stack = s.stack := rfl
@[simp] theorem State.setWithFlag_dt (s : State) (x : Reg) (b : Byte) (f : Bool) : (s.setWithFlag x b f).dt = s.dt := rfl
@[simp] theorem State.setWithFlag_st (s : State) (x : Reg) (b : Byte) (f : Bool) : (s.setWithFlag x b f).st = s.st := rfl
@[simp] theorem State.setWithFlag_mem (s : State) (x : Reg) (b : Byte) (f : Bool) : (s.setWithFlag x b f).mem = s.mem := rfl
@[simp] theorem State.setWithFlag_fb (s : State) (x : Reg) (b : Byte) (f : Bool) : (s.setWithFlag x b f).fb = s.fb := rfl
@[simp] theorem State.setWithFlag_keys (s : State) (x : Reg) (b : Byte) (f : Bool) : (s.setWithFlag x b f).keys = s.keys := rfl
@[simp] theorem State.setWithFlag_wait (s : State) (x : Reg) (b : Byte) (f : Bool) : (s.setWithFlag x b f).wait = s.wait := rfl
@[simp] theorem State.setWithFlag_waitX (s : State) (x : Reg) (b : Byte) (f : Bool) : (s.setWithFlag x b f).waitX = s.waitX := rfl
@[simp] theorem State.setWithFlag_err (s : State) (x : Reg) (b : Byte) (f : Bool) : (s.setWithFlag x b f).err = s.err := rfl
@[simp] theorem State.setWithFlag_frameOut (s : State) (x : Reg) (b : Byte) (f : Bool) : (s.setWithFlag x b f).frameOut = s.frameOut := rfl
@[simp] theorem State.setWithFlag_soundOut (s : State) (x : Reg) (b : Byte) (f : Bool) : (s.setWithFlag x b f).soundOut = s.soundOut := rfl
@[simp] theorem State.setWithFlag_draws (s : State) (x : Reg) (b : Byte) (f : Bool) : (s.setWithFlag x b f).draws = s.draws := rfl
@[simp] theorem State.setWithFlag_cfg (s : State) (x : Reg) (b : Byte) (f : Bool) : (s.setWithFlag x b f).cfg = s.cfg := rfl

/-! ### `setLogic` -/

@[simp] theorem State.setLogic_i (s : State) (x : Reg) (b : Byte) : (s.setLogic x b).i = s.i := by unfold State.setLogic; split <;> rfl
@[simp] theorem State.setLogic_pc (s : State) (x : Reg) (b : Byte) : (s.setLogic x b).pc = s.pc := by unfold State.setLogic; split <;> rfl
@[simp] theorem State.setLogic_sp (s : State) (x : Reg) (b : Byte) : (s.setLogic x b).sp = s.sp := by unfold State.setLogic; split <;> rfl
@[simp] theorem State.setLogic_stack (s : State) (x : Reg) (b : Byte) : (s.setLogic x b).stack = s.stack := by unfold State.setLogic; split <;> rfl
@[simp] theorem State.setLogic_dt (s : State) (x : Reg) (b : Byte) : (s.setLogic x b).dt = s.dt := by unfold State.setLogic; split <;> rfl
@[simp] theorem State.setLogic_st (s : State) (x : Reg) (b : Byte) : (s.setLogic x b).st = s.st := by unfold State.setLogic; split <;> rfl
@[simp] theorem State.setLogic_mem (s : State) (x : Reg) (b : Byte) : (s.setLogic x b).mem = s.mem := by unfold State.setLogic; split <;> rfl
@[simp] theorem State.setLogic_fb (s : State) (x : Reg) (b : Byte) : (s.setLogic x b).fb = s.fb := by unfold State.setLogic; split <;> rfl
@[simp] theorem State.setLogic_keys (s : State) (x : Reg) (b : Byte) : (s.setLogic x b).keys = s.keys := by unfold State.setLogic; split <;> rfl
@[simp] theorem State.setLogic_wait (s : State) (x : Reg) (b : Byte) : (s.setLogic x b).wait = s.wait := by unfold State.setLogic; split <;> rfl
@[simp] theorem State.setLogic_waitX (s : State) (x : Reg) (b : Byte) : (s.setLogic x b).waitX = s.waitX := by unfold State.setLogic; split <;> rfl
@[simp] theorem State.setLogic_err (s : State) (x : Reg) (b : Byte) : (s.setLogic x b).err = s.err := by unfold State.setLogic; split <;> rfl
@[simp] theorem State.setLogic_frameOut (s : State) (x : Reg) (b : Byte) : (s.setLogic x b).frameOut = s.frameOut := by unfold State.setLogic; split <;> rfl
@[simp] theorem State.setLogic_soundOut (s : State) (x : Reg) (b : Byte) : (s.setLogic x b).soundOut = s.soundOut := by unfold State.setLogic; split <;> rfl
@[simp] theorem State.setLogic_draws (s : State) (x : Reg) (b : Byte) : (s.setLogic x b).draws = s.draws := by unfold State.setLogic; split <;> rfl
@[simp] theorem State.setLogic_cfg (s : State) (x : Reg) (b : Byte) : (s.setLogic x b).cfg = s.cfg := by unfold State.setLogic; split <;> rfl

/-! ### `bumpIndex` -/

@[simp] theorem State.bumpIndex_v (s : State) (n : Nat) : (s.bumpIndex n).v = s.v := by unfold State.bumpIndex; split <;> rfl
@[simp] theorem State.bumpIndex_pc (s : State) (n : Nat) : (s.bumpIndex n).pc = s.pc := by unfold State.bumpIndex; split <;> rfl
@[simp] theorem State.bumpIndex_sp (s : State) (n : Nat) : (s.bumpIndex n).sp = s.sp := by unfold State.bumpIndex; split <;> rfl
@[simp] theorem State.bumpIndex_stack (s : State) (n : Nat) : (s.bumpIndex n).stack = s.stack := by unfold State.bumpIndex; split <;> rfl
@[simp] theorem State.bumpIndex_dt (s : State) (n : Nat) : (s.bumpIndex n).dt = s.dt := by unfold State.bumpIndex; split <;> rfl
@[simp] theorem State.bumpIndex_st (s : State) (n : Nat) : (s.bumpIndex n).st = s.st := by unfold State.bumpIndex; split <;> rfl
@[simp] theorem State.bumpIndex_mem (s : State) (n : Nat) : (s.bumpIndex n).mem = s.mem := by unfold State.bumpIndex; split <;> rfl
@[simp] theorem State.bumpIndex_fb (s : State) (n : Nat) : (s.bumpIndex n).fb = s.fb := by unfold State.bumpIndex; split <;> rfl
@[simp] theorem State.bumpIndex_keys (s : State) (n : Nat) : (s.bumpIndex n).keys = s.keys := by unfold State.bumpIndex; split <;> rfl
@[simp] theorem State.bumpIndex_wait (s : State) (n : Nat) : (s.bumpIndex n).wait = s.wait := by unfold State.bumpIndex; split <;> rfl
@[simp] theorem State.bumpIndex_waitX (s : State) (n : Nat) : (s.bumpIndex n).waitX = s.waitX := by unfold State.bumpIndex; split <;> rfl
@[simp] theorem State.bumpIndex_err (s : State) (n : Nat) : (s.bumpIndex n).err = s.err := by unfold State.bumpIndex; split <;> rfl
@[simp] theorem State.bumpIndex_frameOut (s : State) (n : Nat) : (s.bumpIndex n).frameOut = s.frameOut := by unfold State.bumpIndex; split <;> rfl
@[simp] theorem State.bumpIndex_soundOut (s : State) (n : Nat) : (s.bumpIndex n).soundOut = s.soundOut := by unfold State.bumpIndex; split <;> rfl
@[simp] theorem State.bumpIndex_draws (s : State) (n : Nat) : (s.bumpIndex n).draws = s.draws := by unfold State.bumpIndex; split <;> rfl
@[simp] theorem State.bumpIndex_cfg (s : State) (n : Nat) : (s.bumpIndex n).cfg = s.cfg := by unfold State.bumpIndex; split <;> rfl

/-! ### `takeError` -/

@[simp] theorem State.takeError_v (s : State) (k : ErrorKind) (a w : Word) : (s.takeError k a w).v = s.v := by unfold State.takeError; split <;> rfl
@[simp] theorem State.takeError_i (s : State) (k : ErrorKind) (a w : Word) : (s.takeError k a w).i = s.i := by unfold State.takeError; split <;> rfl
@[simp] theorem State.takeError_sp (s : State) (k : ErrorKind) (a w : Word) : (s.takeError k a w).sp = s.sp := by unfold State.takeError; split <;> rfl
@[simp] theorem State.takeError_stack (s : State) (k : ErrorKind) (a w : Word) : (s.takeError k a w).stack = s.stack := by unfold State.takeError; split <;> rfl
@[simp] theorem State.takeError_dt (s : State) (k : ErrorKind) (a w : Word) : (s.takeError k a w).dt = s.dt := by unfold State.takeError; split <;> rfl
@[simp] theorem State.takeError_st (s : State) (k : ErrorKind) (a w : Word) : (s.takeError k a w).st = s.st := by unfold State.takeError; split <;> rfl
@[simp] theorem State.takeError_mem (s : State) (k : ErrorKind) (a w : Word) : (s.takeError k a w).mem = s.mem := by unfold State.takeError; split <;> rfl
@[simp] theorem State.takeError_fb (s : State) (k : ErrorKind) (a w : Word) : (s.takeError k a w).fb = s.fb := by unfold State.takeError; split <;> rfl
@[simp] theorem State.takeError_keys (s : State) (k : ErrorKind) (a w : Word) : (s.takeError k a w).keys = s.keys := by unfold State.takeError; split <;> rfl
@[simp] theorem State.takeError_wait (s : State) (k : ErrorKind) (a w : Word) : (s.takeError k a w).wait = s.wait := by unfold State.takeError; split <;> rfl
@[simp] theorem State.takeError_waitX (s : State) (k : ErrorKind) (a w : Word) : (s.takeError k a w).waitX = s.waitX := by unfold State.takeError; split <;> rfl
@[simp] theorem State.takeError_err (s : State) (k : ErrorKind) (a w : Word) : (s.takeError k a w).err = ⟨k, a, w⟩ := by unfold State.takeError; split <;> rfl
@[simp] theorem State.takeError_frameOut (s : State) (k : ErrorKind) (a w : Word) : (s.takeError k a w).frameOut = s.frameOut := by unfold State.takeError; split <;> rfl
@[simp] theorem State.takeError_soundOut (s : State) (k : ErrorKind) (a w : Word) : (s.takeError k a w).soundOut = s.soundOut := by unfold State.takeError; split <;> rfl
@[simp] theorem State.takeError_draws (s : State) (k : ErrorKind) (a w : Word) : (s.takeError k a w).draws = s.draws := by unfold State.takeError; split <;> rfl
@[simp] theorem State.takeError_cfg (s : State) (k : ErrorKind) (a w : Word) : (s.takeError k a w).cfg = s.cfg := by unfold State.takeError; split <;> rfl

/-! ### `writeBytes` -/

@[simp] theorem State.writeBytes_v (s : State) (a : Nat) (bs : List Byte) : (s.writeBytes a bs).v = s.v := by
  induction bs generalizing s a with
  | nil => rfl
  | cons b bs ih => simp [State.writeBytes, ih]

@[simp] theorem State.writeBytes_i (s : State) (a : Nat) (bs : List Byte) : (s.writeBytes a bs).i = s.i := by
  induction bs generalizing s a with
  | nil => rfl
  | cons b bs ih => simp [State.writeBytes, ih]

@[simp] theorem State.writeBytes_pc (s : State) (a : Nat) (bs : List Byte) : (s.writeBytes a bs).pc = s.pc := by
  induction bs generalizing s a with
  | nil => rfl
  | cons b bs ih => simp [State.writeBytes, ih]

@[simp] theorem State.writeBytes_sp (s : State) (a : Nat) (bs : List Byte) : (s.writeBytes a bs).sp = s.sp := by
  induction bs generalizing s a with
  | nil => rfl
  | cons b bs ih => simp [State.writeBytes, ih]

@[simp] theorem State.writeBytes_stack (s : State) (a : Nat) (bs : List Byte) : (s.writeBytes a bs).stack = s.stack := by
  induction bs generalizing s a with
  | nil => rfl
  | cons b bs ih => simp [State.writeBytes, ih]

@[simp] theorem State.writeBytes_dt (s : State) (a : Nat) (bs : List Byte) : (s.writeBytes a bs).dt = s.dt := by
  induction bs generalizing s a with
  | nil => rfl
  | cons b bs ih => simp [State.writeBytes, ih]

@[simp] theorem State.writeBytes_st (s : State) (a : Nat) (bs : List Byte) : (s.writeBytes a bs).st = s.st := by
  induction bs generalizing s a with
  | nil => rfl
  | cons b bs ih => simp [State.writeBytes, ih]

@[simp] theorem State.writeBytes_fb (s : State) (a : Nat) (bs : List Byte) : (s.writeBytes a bs).fb = s.fb := by
  induction bs generalizing s a with
  | nil => rfl
  | cons b bs ih => simp [State.writeBytes, ih]

@[simp] theorem State.writeBytes_keys (s : State) (a : Nat) (bs : List Byte) : (s.writeBytes a bs).keys = s.keys := by
  induction bs generalizing s a with
  | nil => rfl
  | cons b bs ih => simp [State.writeBytes, ih]

@[simp] theorem State.writeBytes_wait (s : State) (a : Nat) (bs : List Byte) : (s.writeBytes a bs).wait = s.wait := by
  induction bs generalizing s a with
  | nil => rfl
  | cons b bs ih => simp [State.writeBytes, ih]

@[simp] theorem State.writeBytes_waitX (s : State) (a : Nat) (bs : List Byte) : (s.writeBytes a bs).waitX = s.waitX := by
  induction bs generalizing s a with
  | nil => rfl
  | cons b bs ih => simp [State.writeBytes, ih]

@[simp] theorem State.writeBytes_err (s : State) (a : Nat) (bs : List Byte) : (s.writeBytes a bs).err = s.err := by
  induction bs generalizing s a with
  | nil => rfl
  | cons b bs ih => simp [State.writeBytes, ih]

@[simp] theorem State.writeBytes_frameOut (s : State) (a : Nat) (bs : List Byte) : (s.writeBytes a bs).frameOut = s.frameOut := by
  induction bs generalizing s a with
  | nil => rfl
  | cons b bs ih => simp [State.writeBytes, ih]

@[simp] theorem State.writeBytes_soundOut (s : State) (a : Nat) (bs : List Byte) : (s.writeBytes a bs).soundOut = s.soundOut := by
  induction bs generalizing s a with
  | nil => rfl
  | cons b bs ih => simp [State.writeBytes, ih]

@[simp] theorem State.writeBytes_draws (s : State) (a : Nat) (bs : List Byte) : (s.writeBytes a bs).draws = s.draws := by
  induction bs generalizing s a with
  | nil => rfl
  | cons b bs ih => simp [State.writeBytes, ih]

@[simp] theorem State.writeBytes_cfg (s : State) (a : Nat) (bs : List Byte) : (s.writeBytes a bs).cfg = s.cfg := by
  induction bs generalizing s a with
  | nil => rfl
  | cons b bs ih => simp [State.writeBytes, ih]

/-! ### `setRegBlock` -/

@[simp] theorem State.setRegBlock_i (s : State) (j : Nat) (bs : List Byte) : (s.setRegBlock j bs).i = s.i := by
  induction bs generalizing s j with
  | nil => rfl
  | cons b bs ih => simp [State.setRegBlock, ih]

@[simp] theorem State.setRegBlock_pc (s : State) (j : Nat) (bs : List Byte) : (s.setRegBlock j bs).pc = s.pc := by
  induction bs generalizing s j with
  | nil => rfl
  | cons b bs ih => simp [State.setRegBlock, ih]

@[simp] theorem State.setRegBlock_sp (s : State) (j : Nat) (bs : List Byte) : (s.setRegBlock j bs).sp = s.sp := by
  induction bs generalizing s j with
  | nil => rfl
  | cons b bs ih => simp [State.setRegBlock, ih]

@[simp] theorem State.setRegBlock_stack (s : State) (j : Nat) (bs : List Byte) : (s.setRegBlock j bs).stack = s.stack := by
  induction bs generalizing s j with
  | nil => rfl
  | cons b bs ih => simp [State.setRegBlock, ih]

@[simp] theorem State.setRegBlock_dt (s : State) (j : Nat) (bs : List Byte) : (s.setRegBlock j bs).dt = s.dt := by
  induction bs generalizing s j with
  | nil => rfl
  | cons b bs ih => simp [State.setRegBlock, ih]

@[simp] theorem State.setRegBlock_st (s : State) (j : Nat) (bs : List Byte) : (s.setRegBlock j bs).st = s.st := by
  induction bs generalizing s j with
  | nil => rfl
  | cons b bs ih => simp [State.setRegBlock, ih]

@[simp] theorem State.setRegBlock_mem (s : State) (j : Nat) (bs : List Byte) : (s.setRegBlock j bs).mem = s.mem := by
  induction bs generalizing s j with
  | nil => rfl
  | cons b bs ih => simp [State.setRegBlock, ih]

@[simp] theorem State.setRegBlock_fb (s : State) (j : Nat) (bs : List Byte) : (s.setRegBlock j bs).fb = s.fb := by
  induction bs generalizing s j with
  | nil => rfl
  | cons b bs ih => simp [State.setRegBlock, ih]

@[simp] theorem State.setRegBlock_keys (s : State) (j : Nat) (bs : List Byte) : (s.setRegBlock j bs).keys = s.keys := by
  induction bs generalizing s j with
  | nil => rfl
  | cons b bs ih => simp [State.setRegBlock, ih]

@[simp] theorem State.setRegBlock_wait (s : State) (j : Nat) (bs : List Byte) : (s.setRegBlock j bs).wait = s.wait := by
  induction bs generalizing s j with
  | nil => rfl
  | cons b bs ih => simp [State.setRegBlock, ih]

@[simp] theorem State.setRegBlock_waitX (s : State) (j : Nat) (bs : List Byte) : (s.setRegBlock j bs).waitX = s.waitX := by
  induction bs generalizing s j with
  | nil => rfl
  | cons b bs ih => simp [State.setRegBlock, ih]

@[simp] theorem State.setRegBlock_err (s : State) (j : Nat) (bs : List Byte) : (s.setRegBlock j bs).err = s.err := by
  induction bs generalizing s j with
  | nil => rfl
  | cons b bs ih => simp [State.setRegBlock, ih]

@[simp] theorem State.setRegBlock_frameOut (s : State) (j : Nat) (bs : List Byte) : (s.setRegBlock j bs).frameOut = s.frameOut := by
  induction bs generalizing s j with
  | nil => rfl
  | cons b bs ih => simp [State.setRegBlock, ih]

@[simp] theorem State.setRegBlock_soundOut (s : State) (j : Nat) (bs : List Byte) : (s.setRegBlock j bs).soundOut = s.soundOut := by
  induction bs generalizing s j with
  | nil => rfl
  | cons b bs ih => simp [State.setRegBlock, ih]

@[simp] theorem State.setRegBlock_draws (s : State) (j : Nat) (bs : List Byte) : (s.setRegBlock j bs).draws = s.draws := by
  induction bs generalizing s j with
  | nil => rfl
  | cons b bs ih => simp [State.setRegBlock, ih]

@[simp] theorem State.setRegBlock_cfg (s : State) (j : Nat) (bs : List Byte) : (s.setRegBlock j bs).cfg = s.cfg := by
  induction bs generalizing s j with
  | nil => rfl
  | cons b bs ih => simp [State.setRegBlock, ih]

end Sys2Proof.Machine
end

