-- ==== Sys2Proof/Laws/Registers.lean ====
section
/-! SUPPORT. What a register reads after each named update, and what the stack, key and error operations can do. -/

namespace Sys2Proof.Machine

/-! ### Reads of a register -/

theorem State.getReg_setReg (s : State) (x y : Reg) (b : Byte) :
    (s.setReg x b).getReg y = if y = x then b else s.getReg y := by
  simp only [State.getReg, State.setReg, Vector.getElem_set, BitVec.toNat_inj, eq_comm]

@[simp] theorem State.getReg_setI (s : State) (w : Word) (r : Reg) : (s.setI w).getReg r = s.getReg r := rfl
@[simp] theorem State.getReg_jump (s : State) (w : Word) (r : Reg) : (s.jump w).getReg r = s.getReg r := rfl
@[simp] theorem State.getReg_advance (s : State) (r : Reg) : s.advance.getReg r = s.getReg r := rfl
@[simp] theorem State.getReg_skip (s : State) (r : Reg) : s.skip.getReg r = s.getReg r := rfl
@[simp] theorem State.getReg_writeByte (s : State) (a : Nat) (b : Byte) (r : Reg) :
    (s.writeByte a b).getReg r = s.getReg r := rfl
@[simp] theorem State.getReg_writeBytes (s : State) (a : Nat) (bs : List Byte) (r : Reg) :
    (s.writeBytes a bs).getReg r = s.getReg r := by simp [State.getReg]
@[simp] theorem State.getReg_bumpIndex (s : State) (n : Nat) (r : Reg) : (s.bumpIndex n).getReg r = s.getReg r := by
  simp [State.getReg]
@[simp] theorem State.getReg_takeError (s : State) (k : ErrorKind) (a w : Word) (r : Reg) :
    (s.takeError k a w).getReg r = s.getReg r := by simp [State.getReg]

theorem State.getReg_setFlag (s : State) (f : Bool) (r : Reg) :
    (s.setFlag f).getReg r = if r = vf then flagByte f else s.getReg r := State.getReg_setReg s vf r (flagByte f)

/-- The result, then the flag over it (spec/42_alu.md R173). -/
theorem State.getReg_setWithFlag (s : State) (x : Reg) (b : Byte) (f : Bool) (r : Reg) :
    (s.setWithFlag x b f).getReg r = if r = vf then flagByte f else if r = x then b else s.getReg r := by
  rw [State.setWithFlag, State.getReg_setFlag, State.getReg_setReg]

/-- The result of a logic instruction, with the flag over it only under the quirk (spec/42_alu.md R163). -/
theorem State.getReg_setLogic (s : State) (x : Reg) (b : Byte) (r : Reg) :
    (s.setLogic x b).getReg r =
      if s.cfg.logicResetsVF = true ∧ r = vf then 0x00#8 else if r = x then b else s.getReg r := by
  unfold State.setLogic
  by_cases hq : s.cfg.logicResetsVF = true
  · rw [if_pos hq, State.getReg_setWithFlag]
    simp only [hq, true_and, flagByte, Bool.false_eq_true, if_false]
  · rw [if_neg hq, State.getReg_setReg]
    simp only [hq, Bool.false_eq_true, false_and, if_false]

/-- A block of registers loaded from index `j` (spec/43_index_memory.md R185). -/
theorem State.getReg_setRegBlock (s : State) (j : Nat) (bs : List Byte) (hj : j + bs.length ≤ 16) (r : Reg) :
    (s.setRegBlock j bs).getReg r =
      if j ≤ r.toNat ∧ r.toNat < j + bs.length then bs.getD (r.toNat - j) 0x00#8 else s.getReg r := by
  induction bs generalizing s j with
  | nil =>
    rw [if_neg (by simp only [List.length_nil]; omega)]
    rfl
  | cons b bs ih =>
    simp only [List.length_cons] at hj ⊢
    rw [State.setRegBlock, ih _ (j + 1) (by omega), State.getReg_setReg]
    have hr : r = BitVec.ofNat 4 j ↔ r.toNat = j := by
      rw [← BitVec.toNat_inj, BitVec.toNat_ofNat, Nat.mod_eq_of_lt (by omega)]
    rcases Nat.lt_trichotomy r.toNat j with hlt | heq | hgt
    · rw [if_neg (by omega), if_neg (by rw [hr]; omega), if_neg (by omega)]
    · rw [if_neg (by omega), if_pos (hr.mpr heq), if_pos (by omega), heq]
      simp
    · by_cases hin : r.toNat < j + (bs.length + 1)
      · rw [if_pos (by omega), if_pos (by omega), show r.toNat - j = (r.toNat - (j + 1)) + 1 by omega,
          List.getD_cons_succ]
      · rw [if_neg (by omega), if_neg (by rw [hr]; omega), if_neg (by omega)]

/-! ### `I` after a bump, `pc` after an error -/

/-- `I` after a bump (spec/43_index_memory.md R186). -/
theorem State.bumpIndex_i (s : State) (n : Nat) :
    (s.bumpIndex n).i = if s.cfg.memIncrI then (s.i + BitVec.ofNat 16 n) &&& 0x0FFF#16 else s.i := by
  unfold State.bumpIndex
  split <;> rfl

/-- `pc` after the entry into an error (spec/40_execution_cycle.md R126, R127). -/
theorem State.takeError_pc (s : State) (k : ErrorKind) (a w : Word) :
    (s.takeError k a w).pc = if s.cfg.errorPolicy = .halt then s.pc else s.pc + 2#16 := by
  unfold State.takeError
  cases s.cfg.errorPolicy <;> rfl

/-! ### The return stack -/

/-- Everything a push can do (spec/10_state.md R25). -/
theorem State.pushReturn_some {s t : State} {a : Word} (h : s.pushReturn a = some t) :
    ∃ hs : s.sp.val < 16, t = { s with stack := s.stack.set s.sp.val a hs, sp := ⟨s.sp.val + 1, by omega⟩ } := by
  unfold State.pushReturn at h
  split at h
  · exact ⟨‹_›, (Option.some.inj h).symm⟩
  · cases h

theorem State.pushReturn_none {s : State} {a : Word} : s.pushReturn a = none ↔ s.sp.val = 16 := by
  unfold State.pushReturn
  split <;> simp <;> omega

/-- Everything a pop can do (R25). -/
theorem State.popReturn_some {s t : State} (h : s.popReturn = some t) :
    ∃ _ : s.sp.val ≠ 0, t = { s with sp := ⟨s.sp.val - 1, by omega⟩, pc := s.stack[s.sp.val - 1]'(by omega) } := by
  unfold State.popReturn at h
  split at h
  · cases h
  · exact ⟨‹_›, (Option.some.inj h).symm⟩

theorem State.popReturn_none {s : State} : s.popReturn = none ↔ s.sp.val = 0 := by
  unfold State.popReturn
  split <;> simp_all

/-! ### Keys -/

/-- The lowest key pressed (spec/40_execution_cycle.md R122): it is down and none below it is. -/
theorem lowestKey_some {keys : Word} {k : Nat} (h : lowestKey keys = some k) :
    k < 16 ∧ keys.getLsbD k = true ∧ ∀ j < k, keys.getLsbD j = false := by
  rw [lowestKey, List.find?_range_eq_some] at h
  exact ⟨by simpa using h.2.1, h.1, fun j hj => by simpa using h.2.2 j hj⟩

theorem lowestKey_none {keys : Word} : lowestKey keys = none ↔ keys = 0x0000#16 := by
  rw [lowestKey, List.find?_eq_none]
  constructor
  · intro h
    apply BitVec.eq_of_getLsbD_eq
    intro j hj
    have := h j (by simpa using hj)
    simpa using this
  · rintro rfl k -
    simp

/-- Everything a key-wait poll can do (R122). -/
theorem State.keyWaitPoll_cases (s : State) :
    (s.keys = 0x0000#16 ∧ s.keyWaitPoll = s) ∨
    ∃ k, lowestKey s.keys = some k ∧
      s.keyWaitPoll = { s.setReg s.waitX (BitVec.ofNat 8 k) with wait := false, pc := s.pc + 2#16 } := by
  unfold State.keyWaitPoll
  cases h : lowestKey s.keys with
  | none => exact .inl ⟨lowestKey_none.mp h, rfl⟩
  | some k => exact .inr ⟨k, rfl, rfl⟩

end Sys2Proof.Machine
end

