-- ==== Sys2Proof/Laws/Display.lean ====
section
/-! SUPPORT. The closed form of a sprite draw: what each pixel of the display is afterwards, and when there was a collision
(spec/44_display.md R191, R192). -/

namespace Sys2Proof.Machine

/-- One pixel XORed: that pixel changes by `b`, no other does. -/
theorem Framebuffer.pixel_xorPixel (f : Framebuffer) (x u : Fin 64) (y w : Fin 32) (b : Bool) :
    (f.xorPixel x y b).pixel u w = (f.pixel u w ^^ (b && decide (u = x) && decide (w = y))) := by
  unfold Framebuffer.xorPixel Framebuffer.pixel
  cases b with
  | false => simp
  | true =>
    simp only [if_true, Bool.true_and, Vector.getElem_set]
    by_cases hy : y.val = w.val
    · have hy' : y = w := Fin.ext hy
      subst hy'
      by_cases hx : x = u
      · subst hx; simp
      · have h1 : ¬ u = x := fun h => hx h.symm
        have h2 : ¬ u.val = x.val := fun h => h1 (Fin.ext h)
        simp [h1, h2]
    · have h1 : ¬ w = y := fun h => hy (congrArg Fin.val h.symm)
      simp [hy, h1]

@[simp] theorem Framebuffer.pixel_blank (x : Fin 64) (y : Fin 32) : Framebuffer.blank.pixel x y = false := by
  simp [Framebuffer.blank, Framebuffer.pixel]

/-- Displays with the same pixels are the same display. -/
theorem Framebuffer.ext_pixel {f g : Framebuffer} (h : ∀ x y, f.pixel x y = g.pixel x y) : f = g := by
  apply Vector.ext
  intro j hj
  apply BitVec.eq_of_getLsbD_eq
  intro k hk
  exact h ⟨k, hk⟩ ⟨j, hj⟩

/-- Whether a sprite byte drawn from column `x0` puts a 1 on column `u`. -/
def byteCovers (x0 : Nat) (b : Byte) (u : Fin 64) : Bool :=
  (List.range 8).any fun c => b.getLsbD (7 - c) && decide (u = column (x0 + c))

/-- Whether a sprite drawn from `(x0, y0)` puts a 1 on the pixel `(u, w)`. -/
def spriteCovers (x0 y0 : Nat) : List Byte → Fin 64 → Fin 32 → Bool
  | [], _, _ => false
  | b :: bs, u, w => (byteCovers x0 b u && decide (w = row y0)) || spriteCovers x0 (y0 + 1) bs u w

theorem column_eq_iff (a b : Nat) : column a = column b ↔ a % 64 = b % 64 := by
  simp [column, Fin.ext_iff, Fin.ofNat]

theorem row_eq_iff (a b : Nat) : row a = row b ↔ a % 32 = b % 32 := by
  simp [row, Fin.ext_iff, Fin.ofNat]

/-- One row of the loop of R191 over the columns `cs`, none of which is met twice. -/
theorem blitColumns (x0 : Nat) (y : Fin 32) (b : Byte) (cs : List Nat) (hcs : cs.Pairwise fun a c => column (x0 + a) ≠ column (x0 + c))
    (d : Framebuffer × Bool) :
    (∀ u w, (cs.foldl (fun d c => blitPixel (column (x0 + c)) y (b.getLsbD (7 - c)) d) d).1.pixel u w =
      (d.1.pixel u w ^^ (cs.any (fun c => b.getLsbD (7 - c) && decide (u = column (x0 + c))) && decide (w = y)))) ∧
    (cs.foldl (fun d c => blitPixel (column (x0 + c)) y (b.getLsbD (7 - c)) d) d).2 =
      (d.2 || cs.any fun c => b.getLsbD (7 - c) && d.1.pixel (column (x0 + c)) y) := by
  induction cs generalizing d with
  | nil => simp
  | cons c cs ih =>
    rw [List.pairwise_cons] at hcs
    obtain ⟨hpix, hhit⟩ := ih hcs.2 (blitPixel (column (x0 + c)) y (b.getLsbD (7 - c)) d)
    refine ⟨fun u w => ?_, ?_⟩
    · rw [List.foldl_cons, hpix]
      simp only [blitPixel, Framebuffer.pixel_xorPixel, List.any_cons]
      by_cases hw : w = y
      · by_cases hu : u = column (x0 + c)
        · have hnone : cs.any (fun c => b.getLsbD (7 - c) && decide (u = column (x0 + c))) = false := by
            rw [List.any_eq_false]
            intro c' hc'
            have := hcs.1 c' hc'
            rw [hu]
            simp [this]
          rw [hnone]
          simp [hw, hu]
        · simp [hw, hu]
      · simp [hw]
    · rw [List.foldl_cons, hhit]
      simp only [blitPixel, List.any_cons, Bool.or_assoc]
      congr 2
      rw [Bool.eq_iff_iff, List.any_eq_true, List.any_eq_true]
      constructor <;>
      · rintro ⟨c', hc', h⟩
        refine ⟨c', hc', ?_⟩
        have hne : ¬ column (x0 + c') = column (x0 + c) := fun h => hcs.1 c' hc' h.symm
        simpa [Framebuffer.pixel_xorPixel, hne] using h

theorem columns_distinct (x0 : Nat) : (List.range 8).Pairwise fun a c => column (x0 + a) ≠ column (x0 + c) :=
  List.Pairwise.imp_of_mem (fun {a c} ha hc hne heq => hne (by
    rw [List.mem_range] at ha hc
    rw [column_eq_iff] at heq
    omega)) List.nodup_range

/-- What one sprite row does to each pixel and to `hit`. -/
theorem blitRow_spec (x0 : Nat) (y : Fin 32) (b : Byte) (d : Framebuffer × Bool) :
    (∀ u w, (blitRow x0 y b d).1.pixel u w = (d.1.pixel u w ^^ (byteCovers x0 b u && decide (w = y)))) ∧
    ((blitRow x0 y b d).2 = true ↔ d.2 = true ∨ ∃ u, byteCovers x0 b u = true ∧ d.1.pixel u y = true) := by
  obtain ⟨hp, hh⟩ := blitColumns x0 y b (List.range 8) (columns_distinct x0) d
  refine ⟨hp, ?_⟩
  rw [blitRow, hh, Bool.or_eq_true, List.any_eq_true]
  refine or_congr Iff.rfl ⟨?_, ?_⟩
  · rintro ⟨c, hc, h⟩
    rw [Bool.and_eq_true] at h
    exact ⟨column (x0 + c), List.any_eq_true.mpr ⟨c, hc, by simp [h.1]⟩, h.2⟩
  · rintro ⟨u, hu, hpix⟩
    obtain ⟨c, hc, h⟩ := List.any_eq_true.mp hu
    rw [Bool.and_eq_true, decide_eq_true_eq] at h
    exact ⟨c, hc, by rw [Bool.and_eq_true]; exact ⟨h.1, h.2 ▸ hpix⟩⟩

/-- A sprite with fewer rows than it would need to come round to row `y` puts nothing there. -/
theorem spriteCovers_other_row (x0 y0 : Nat) (bs : List Byte) (u : Fin 64) (w : Fin 32)
    (h : ∀ r < bs.length, w ≠ row (y0 + r)) : spriteCovers x0 y0 bs u w = false := by
  induction bs generalizing y0 with
  | nil => rfl
  | cons b bs ih =>
    have h0 := h 0 (by simp)
    rw [spriteCovers, ih (y0 + 1) fun r hr => by
      have := h (r + 1) (by simp only [List.length_cons]; omega)
      rwa [show y0 + (r + 1) = y0 + 1 + r by omega] at this]
    simp only [Nat.add_zero] at h0
    simp [h0]

/-- THE DRAW (R191, R192): every pixel is XORed with what the sprite covers it with, and `hit` says whether a pixel the
sprite covers was lit. -/
theorem blit_spec (x0 y0 : Nat) (bs : List Byte) (hn : bs.length ≤ 32) (d : Framebuffer × Bool) :
    (∀ u w, (blit x0 y0 bs d).1.pixel u w = (d.1.pixel u w ^^ spriteCovers x0 y0 bs u w)) ∧
    ((blit x0 y0 bs d).2 = true ↔
      d.2 = true ∨ ∃ u w, spriteCovers x0 y0 bs u w = true ∧ d.1.pixel u w = true) := by
  induction bs generalizing y0 d with
  | nil => simp [blit, spriteCovers]
  | cons b bs ih =>
    simp only [List.length_cons] at hn
    obtain ⟨hrp, hrh⟩ := blitRow_spec x0 (row y0) b d
    obtain ⟨hp, hh⟩ := ih (y0 + 1) (by omega) (blitRow x0 (row y0) b d)
    have hclear : ∀ u, spriteCovers x0 (y0 + 1) bs u (row y0) = false := fun u =>
      spriteCovers_other_row x0 (y0 + 1) bs u (row y0) fun r hr h => by
        rw [row_eq_iff] at h
        omega
    refine ⟨fun u w => ?_, ?_⟩
    · rw [blit, hp, hrp, spriteCovers]
      by_cases hw : w = row y0
      · subst hw; simp [hclear]
      · simp [hw]
    · rw [blit, hh, hrh, or_assoc]
      refine or_congr Iff.rfl ⟨?_, ?_⟩
      · rintro (⟨u, hu, hpix⟩ | ⟨u, w, hu, hpix⟩)
        · exact ⟨u, row y0, by simp [spriteCovers, hu], hpix⟩
        · have hw : w ≠ row y0 := by
            rintro rfl
            rw [hclear] at hu
            cases hu
          refine ⟨u, w, by simp [spriteCovers, hu], ?_⟩
          rw [hrp] at hpix
          simpa [hw] using hpix
      · rintro ⟨u, w, hu, hpix⟩
        by_cases hw : w = row y0
        · subst hw
          refine .inl ⟨u, ?_, hpix⟩
          simpa [spriteCovers, hclear] using hu
        · refine .inr ⟨u, w, by simpa [spriteCovers, hw] using hu, ?_⟩
          rw [hrp]
          simpa [hw] using hpix

end Sys2Proof.Machine
end

