-- ==== Sys2Proof/Laws/Memory.lean ====
section
/-! SUPPORT. The laws of memory: a byte read after a write (spec/20_memory.md R70), the canonical form under every memory
operation, and canonical memories that read alike are equal. -/

namespace Sys2Proof.Machine

/-! ### The list: lookup after insert, erase and write -/

theorem Memory.wfFrom_weaken {c : Config} {lo hi : Nat} {m : Memory} (h : Memory.wfFrom c hi m = true) (hle : lo ≤ hi) :
    Memory.wfFrom c lo m = true := by
  cases m with
  | nil => rfl
  | cons p m =>
    obtain ⟨a, b⟩ := p
    simp only [Memory.wfFrom, Bool.and_eq_true, decide_eq_true_eq] at h ⊢
    exact ⟨⟨⟨by omega, h.1.1.2⟩, h.1.2⟩, h.2⟩

/-- Nothing below the start of a canonical memory is listed. -/
theorem Memory.lookup_below {c : Config} {lo a : Nat} {m : Memory} (h : Memory.wfFrom c lo m = true) (ha : a < lo) :
    Memory.lookup m a = none := by
  induction m generalizing lo with
  | nil => rfl
  | cons p m ih =>
    obtain ⟨a', b⟩ := p
    simp only [Memory.wfFrom, Bool.and_eq_true, decide_eq_true_eq] at h
    rw [Memory.lookup, if_neg (by omega)]
    exact ih h.2 (by omega)

/-- Nothing outside the address space is listed. -/
theorem Memory.lookup_outside {c : Config} {lo a : Nat} {m : Memory} (h : Memory.wfFrom c lo m = true) (ha : 0x1000 ≤ a) :
    Memory.lookup m a = none := by
  induction m generalizing lo with
  | nil => rfl
  | cons p m ih =>
    obtain ⟨a', b⟩ := p
    simp only [Memory.wfFrom, Bool.and_eq_true, decide_eq_true_eq] at h
    rw [Memory.lookup, if_neg (by omega)]
    exact ih h.2

theorem Memory.lookup_insertCell (m : Memory) (a : Nat) (b : Byte) (k : Nat) :
    Memory.lookup (Memory.insertCell a b m) k = if k = a then some b else Memory.lookup m k := by
  induction m with
  | nil => simp [Memory.insertCell, Memory.lookup]
  | cons p m ih =>
    obtain ⟨a', b'⟩ := p
    unfold Memory.insertCell
    split
    · simp [Memory.lookup]
    · split
      · subst_vars
        simp only [Memory.lookup]
        split <;> rfl
      · simp only [Memory.lookup, ih]
        split
        · subst_vars
          rw [if_neg (by omega)]
        · rfl

theorem Memory.lookup_eraseCell {c : Config} {lo : Nat} {m : Memory} (h : Memory.wfFrom c lo m = true) (a k : Nat) :
    Memory.lookup (Memory.eraseCell a m) k = if k = a then none else Memory.lookup m k := by
  induction m generalizing lo with
  | nil => simp [Memory.eraseCell, Memory.lookup]
  | cons p m ih =>
    obtain ⟨a', b'⟩ := p
    simp only [Memory.wfFrom, Bool.and_eq_true, decide_eq_true_eq] at h
    unfold Memory.eraseCell
    split
    · subst_vars
      split
      · subst_vars
        exact Memory.lookup_below h.2 (by omega)
      · simp only [Memory.lookup, if_neg ‹_›]
    · simp only [Memory.lookup, ih h.2]
      split
      · subst_vars
        rw [if_neg (by omega)]
      · rfl

/-! ### The canonical form is kept -/

theorem Memory.wfFrom_insertCell {c : Config} {lo a : Nat} {b : Byte} {m : Memory} (h : Memory.wfFrom c lo m = true)
    (hlo : lo ≤ a) (ha : a < 0x1000) (hb : b ≠ resetByte c a) : Memory.wfFrom c lo (Memory.insertCell a b m) = true := by
  induction m generalizing lo with
  | nil => simp [Memory.insertCell, Memory.wfFrom, hlo, ha, hb]
  | cons p m ih =>
    obtain ⟨a', b'⟩ := p
    have h' := h
    simp only [Memory.wfFrom, Bool.and_eq_true, decide_eq_true_eq] at h
    unfold Memory.insertCell
    split
    · simp only [Memory.wfFrom, Bool.and_eq_true, decide_eq_true_eq]
      exact ⟨⟨⟨hlo, ha⟩, by simpa using hb⟩, ⟨⟨by omega, h.1.1.2⟩, h.1.2⟩, h.2⟩
    · split
      · subst_vars
        simp only [Memory.wfFrom, Bool.and_eq_true, decide_eq_true_eq]
        exact ⟨⟨⟨hlo, ha⟩, by simpa using hb⟩, h.2⟩
      · simp only [Memory.wfFrom, Bool.and_eq_true, decide_eq_true_eq]
        exact ⟨h.1, ih h.2 (by omega)⟩

theorem Memory.wfFrom_eraseCell {c : Config} {lo : Nat} (a : Nat) {m : Memory} (h : Memory.wfFrom c lo m = true) :
    Memory.wfFrom c lo (Memory.eraseCell a m) = true := by
  induction m generalizing lo with
  | nil => rfl
  | cons p m ih =>
    obtain ⟨a', b'⟩ := p
    simp only [Memory.wfFrom, Bool.and_eq_true, decide_eq_true_eq] at h
    unfold Memory.eraseCell
    split
    · exact Memory.wfFrom_weaken h.2 (by omega)
    · simp only [Memory.wfFrom, Bool.and_eq_true, decide_eq_true_eq]
      exact ⟨h.1, ih h.2⟩

/-- A write inside the address space keeps the canonical form. -/
theorem Memory.wf_write {c : Config} {m : Memory} {a : Nat} (b : Byte) (h : Memory.wf c m = true) (ha : a < 0x1000) :
    Memory.wf c (Memory.write c m a b) = true := by
  unfold Memory.write
  split
  · exact Memory.wfFrom_eraseCell a h
  · exact Memory.wfFrom_insertCell h (Nat.zero_le a) ha ‹_›

theorem Memory.lookup_write {c : Config} {m : Memory} (h : Memory.wf c m = true) (a : Nat) (b : Byte) (k : Nat) :
    (Memory.lookup (Memory.write c m a b) k).getD (resetByte c k) =
      if k = a then b else (Memory.lookup m k).getD (resetByte c k) := by
  unfold Memory.write
  split
  · rw [Memory.lookup_eraseCell h]
    split
    · subst_vars; rfl
    · rfl
  · rw [Memory.lookup_insertCell]
    split <;> rfl

/-- Canonical memories that read alike at every address are the same list. -/
theorem Memory.eq_of_lookup {c : Config} {lo : Nat} {m m' : Memory} (h : Memory.wfFrom c lo m = true)
    (h' : Memory.wfFrom c lo m' = true)
    (hr : ∀ a, (Memory.lookup m a).getD (resetByte c a) = (Memory.lookup m' a).getD (resetByte c a)) : m = m' := by
  induction m generalizing lo m' with
  | nil =>
    cases m' with
    | nil => rfl
    | cons p m' =>
      obtain ⟨a, b⟩ := p
      simp only [Memory.wfFrom, Bool.and_eq_true, bne_iff_ne] at h'
      have := hr a
      simp only [Memory.lookup, if_pos, Option.getD] at this
      exact absurd this.symm h'.1.2
  | cons p m ih =>
    obtain ⟨a, b⟩ := p
    simp only [Memory.wfFrom, Bool.and_eq_true, decide_eq_true_eq, bne_iff_ne] at h
    cases m' with
    | nil =>
      have := hr a
      simp only [Memory.lookup, if_pos, Option.getD] at this
      exact absurd this h.1.2
    | cons q m' =>
      obtain ⟨a', b'⟩ := q
      simp only [Memory.wfFrom, Bool.and_eq_true, decide_eq_true_eq, bne_iff_ne] at h'
      have hab : a = a' := by
        rcases Nat.lt_trichotomy a a' with hlt | heq | hgt
        · have := hr a
          rw [Memory.lookup, if_pos rfl, Memory.lookup, if_neg (by omega), Memory.lookup_below h'.2 (by omega)] at this
          exact absurd this h.1.2
        · exact heq
        · have := hr a'
          rw [Memory.lookup, if_neg (by omega), Memory.lookup_below h.2 (by omega), Memory.lookup, if_pos rfl] at this
          exact absurd this.symm h'.1.2
      subst hab
      have hb := hr a
      simp only [Memory.lookup, if_pos, Option.getD] at hb
      subst hb
      congr 1
      refine ih h.2 h'.2 fun k => ?_
      have hk := hr k
      simp only [Memory.lookup] at hk
      by_cases hka : k = a
      · subst hka
        rw [Memory.lookup_below h.2 (by omega), Memory.lookup_below h'.2 (by omega)]
      · simpa only [if_neg hka] using hk

/-! ### The state's view -/

@[simp] theorem State.readByte_setReg (s : State) (x : Reg) (b : Byte) (a : Nat) :
    (s.setReg x b).readByte a = s.readByte a := rfl
@[simp] theorem State.readByte_setI (s : State) (w : Word) (a : Nat) : (s.setI w).readByte a = s.readByte a := rfl
@[simp] theorem State.readByte_jump (s : State) (w : Word) (a : Nat) : (s.jump w).readByte a = s.readByte a := rfl
@[simp] theorem State.readByte_advance (s : State) (a : Nat) : s.advance.readByte a = s.readByte a := rfl
@[simp] theorem State.readByte_skip (s : State) (a : Nat) : s.skip.readByte a = s.readByte a := rfl
@[simp] theorem State.readByte_setFlag (s : State) (f : Bool) (a : Nat) : (s.setFlag f).readByte a = s.readByte a := rfl
@[simp] theorem State.readByte_setWithFlag (s : State) (x : Reg) (b : Byte) (f : Bool) (a : Nat) :
    (s.setWithFlag x b f).readByte a = s.readByte a := rfl
@[simp] theorem State.readByte_setLogic (s : State) (x : Reg) (b : Byte) (a : Nat) :
    (s.setLogic x b).readByte a = s.readByte a := by simp [State.readByte]
@[simp] theorem State.readByte_bumpIndex (s : State) (n a : Nat) : (s.bumpIndex n).readByte a = s.readByte a := by
  simp [State.readByte]
@[simp] theorem State.readByte_setRegBlock (s : State) (j : Nat) (bs : List Byte) (a : Nat) :
    (s.setRegBlock j bs).readByte a = s.readByte a := by simp [State.readByte]
@[simp] theorem State.readByte_takeError (s : State) (k : ErrorKind) (w w' : Word) (a : Nat) :
    (s.takeError k w w').readByte a = s.readByte a := by simp [State.readByte]

/-- Read after write of one byte (R70). -/
theorem State.readByte_writeByte {s : State} (h : Memory.wf s.cfg s.mem = true) (a : Nat) (b : Byte) (k : Nat) :
    (s.writeByte a b).readByte k = if k = a then b else s.readByte k :=
  Memory.lookup_write h a b k

/-- A block write inside the address space keeps the canonical form. -/
theorem State.wf_writeBytes {s : State} (h : Memory.wf s.cfg s.mem = true) (a : Nat) (bs : List Byte)
    (ha : a + bs.length ≤ 0x1000) : Memory.wf s.cfg (s.writeBytes a bs).mem = true := by
  induction bs generalizing s a with
  | nil => exact h
  | cons b bs ih =>
    simp only [List.length_cons] at ha
    have := ih (s := s.writeByte a b) (Memory.wf_write b h (by omega)) (a + 1) (by omega)
    simpa [State.writeBytes] using this

/-- Read after a block write (R63, R70): the byte written inside the block, the old byte outside it. -/
theorem State.readByte_writeBytes {s : State} (h : Memory.wf s.cfg s.mem = true) (a : Nat) (bs : List Byte)
    (ha : a + bs.length ≤ 0x1000) (k : Nat) :
    (s.writeBytes a bs).readByte k = if a ≤ k ∧ k < a + bs.length then bs.getD (k - a) 0x00#8 else s.readByte k := by
  induction bs generalizing s a with
  | nil =>
    rw [if_neg (by simp only [List.length_nil]; omega)]
    rfl
  | cons b bs ih =>
    simp only [List.length_cons] at ha ⊢
    have hw : Memory.wf (s.writeByte a b).cfg (s.writeByte a b).mem = true := Memory.wf_write b h (by omega)
    rw [State.writeBytes, ih hw (a + 1) (by omega), State.readByte_writeByte h]
    rcases Nat.lt_trichotomy k a with hlt | heq | hgt
    · rw [if_neg (by omega), if_neg (by omega), if_neg (by omega)]
    · subst heq
      rw [if_neg (by omega), if_pos rfl, if_pos (by omega)]
      simp
    · by_cases hin : k < a + (bs.length + 1)
      · rw [if_pos (by omega), if_pos (by omega), show k - a = (k - (a + 1)) + 1 by omega, List.getD_cons_succ]
      · rw [if_neg (by omega), if_neg (by omega), if_neg (by omega)]

/-- The whole of a successful `MemWrite` (R63). -/
theorem State.memWrite_ok {s t : State} {a : Nat} {bs : List Byte} (h : s.memWrite a bs = .ok t) :
    t = s.writeBytes a bs ∧ (bs = [] ∨ a + bs.length ≤ 0x1000) := by
  unfold State.memWrite inBounds at h
  split at h
  · rename_i hb
    refine ⟨(Except.ok.inj h).symm, ?_⟩
    simp only [Bool.or_eq_true, decide_eq_true_eq, List.length_eq_zero_iff] at hb
    rcases hb with hb | hb
    · exact .inl hb
    · by_cases hn : bs = []
      · exact .inl hn
      · have : 0 < bs.length := List.length_pos_of_ne_nil hn
        exact .inr (by omega)
  · cases h

/-- The whole of a successful `MemRead` (R62). -/
theorem State.memRead_ok {s : State} {a n : Nat} {b : List Byte} (h : s.memRead a n = .ok b) :
    b = (List.range n).map (fun j => s.readByte (a + j)) ∧ (n = 0 ∨ a + n ≤ 0x1000) := by
  unfold State.memRead inBounds at h
  split at h
  · rename_i hb
    refine ⟨(Except.ok.inj h).symm, ?_⟩
    simp only [Bool.or_eq_true, decide_eq_true_eq] at hb
    omega
  · cases h

/-- When `MemRead` fails, and with which address (R62). -/
theorem State.memRead_error {s : State} {a n e : Nat} (h : s.memRead a n = .error e) :
    e = max a 0x1000 ∧ 1 ≤ n ∧ 0xFFF < a + n - 1 := by
  unfold State.memRead inBounds at h
  split at h
  · cases h
  · rename_i hb
    simp only [Bool.or_eq_true, decide_eq_true_eq] at hb
    exact ⟨(Except.error.inj h).symm, by omega, by omega⟩

/-- When `MemWrite` fails, and with which address (R63). -/
theorem State.memWrite_error {s : State} {a e : Nat} {bs : List Byte} (h : s.memWrite a bs = .error e) :
    e = max a 0x1000 ∧ 1 ≤ bs.length ∧ 0xFFF < a + bs.length - 1 := by
  unfold State.memWrite inBounds at h
  split at h
  · cases h
  · rename_i hb
    simp only [Bool.or_eq_true, decide_eq_true_eq] at hb
    exact ⟨(Except.error.inj h).symm, by omega, by omega⟩

/-- The whole of a fetch (R123). -/
theorem State.fetch_eq (s : State) :
    s.fetch = if s.pc.toNat ≤ 0xFFE then .ok (wordOfBytes (s.readByte s.pc.toNat) (s.readByte (s.pc.toNat + 1)))
      else .error (max s.pc.toNat 0x1000) := by
  have h2 : (List.range 2) = [0, 1] := rfl
  unfold State.fetch State.memRead inBounds
  by_cases h : s.pc.toNat ≤ 0xFFE
  · rw [if_pos h, if_pos (by simp; omega)]
    simp [h2]
  · rw [if_neg h, if_neg (by simp; omega)]
    rfl

end Sys2Proof.Machine
end

