-- ==== Sys2Proof/Laws/PerInstr.lean ====
section
/-! SUPPORT. Per instruction: the encoded word has its row's fixed bits (spec/30_encoding.md R96, spec/opcode_table.json). -/

/-- The row of spec/opcode_table.json a variant stands for: its mask and its match. -/
def Sys2Proof.Laws.tableRow : Sys2Proof.Instr → Sys2Proof.Word × Sys2Proof.Word
  | .sys _ => (0xF000#16, 0x0000#16)
  | .cls => (0xFFFF#16, 0x00E0#16)
  | .ret => (0xFFFF#16, 0x00EE#16)
  | .jp _ => (0xF000#16, 0x1000#16)
  | .call _ => (0xF000#16, 0x2000#16)
  | .seImm _ _ => (0xF000#16, 0x3000#16)
  | .sneImm _ _ => (0xF000#16, 0x4000#16)
  | .seReg _ _ => (0xF00F#16, 0x5000#16)
  | .ldImm _ _ => (0xF000#16, 0x6000#16)
  | .addImm _ _ => (0xF000#16, 0x7000#16)
  | .ldReg _ _ => (0xF00F#16, 0x8000#16)
  | .orReg _ _ => (0xF00F#16, 0x8001#16)
  | .andReg _ _ => (0xF00F#16, 0x8002#16)
  | .xorReg _ _ => (0xF00F#16, 0x8003#16)
  | .addReg _ _ => (0xF00F#16, 0x8004#16)
  | .sub _ _ => (0xF00F#16, 0x8005#16)
  | .shr _ _ => (0xF00F#16, 0x8006#16)
  | .subn _ _ => (0xF00F#16, 0x8007#16)
  | .shl _ _ => (0xF00F#16, 0x800E#16)
  | .sneReg _ _ => (0xF00F#16, 0x9000#16)
  | .ldI _ => (0xF000#16, 0xA000#16)
  | .jpV0 _ => (0xF000#16, 0xB000#16)
  | .rnd _ _ => (0xF000#16, 0xC000#16)
  | .drw _ _ _ => (0xF000#16, 0xD000#16)
  | .skp _ => (0xF0FF#16, 0xE09E#16)
  | .sknp _ => (0xF0FF#16, 0xE0A1#16)
  | .ldVxDt _ => (0xF0FF#16, 0xF007#16)
  | .ldVxK _ => (0xF0FF#16, 0xF00A#16)
  | .ldDtVx _ => (0xF0FF#16, 0xF015#16)
  | .ldStVx _ => (0xF0FF#16, 0xF018#16)
  | .addIVx _ => (0xF0FF#16, 0xF01E#16)
  | .ldFVx _ => (0xF0FF#16, 0xF029#16)
  | .ldBVx _ => (0xF0FF#16, 0xF033#16)
  | .stRegs _ => (0xF0FF#16, 0xF055#16)
  | .ldRegs _ => (0xF0FF#16, 0xF065#16)

/-- The word of `i` under the row's mask is the row's match. -/
def Sys2Proof.Laws.EncodeMatchesTable.Statement (i : Sys2Proof.Instr) : Prop :=
  Sys2Proof.encode i &&& (Sys2Proof.Laws.tableRow i).1 = (Sys2Proof.Laws.tableRow i).2

namespace Sys2Proof.Laws

theorem EncodeMatchesTable.sys (nnn : Addr12) : EncodeMatchesTable.Statement (.sys nnn) := mask_addr _ _
theorem EncodeMatchesTable.cls : EncodeMatchesTable.Statement .cls := by
  unfold EncodeMatchesTable.Statement; decide
theorem EncodeMatchesTable.ret : EncodeMatchesTable.Statement .ret := by
  unfold EncodeMatchesTable.Statement; decide
theorem EncodeMatchesTable.jp (nnn : Addr12) : EncodeMatchesTable.Statement (.jp nnn) := mask_addr _ _
theorem EncodeMatchesTable.call (nnn : Addr12) : EncodeMatchesTable.Statement (.call nnn) := mask_addr _ _
theorem EncodeMatchesTable.seImm (x : Reg) (nn : Byte) : EncodeMatchesTable.Statement (.seImm x nn) := mask_reg_byte _ _ _
theorem EncodeMatchesTable.sneImm (x : Reg) (nn : Byte) : EncodeMatchesTable.Statement (.sneImm x nn) := mask_reg_byte _ _ _
theorem EncodeMatchesTable.seReg (x y : Reg) : EncodeMatchesTable.Statement (.seReg x y) := mask_reg_reg _ _ _ _
theorem EncodeMatchesTable.ldImm (x : Reg) (nn : Byte) : EncodeMatchesTable.Statement (.ldImm x nn) := mask_reg_byte _ _ _
theorem EncodeMatchesTable.addImm (x : Reg) (nn : Byte) : EncodeMatchesTable.Statement (.addImm x nn) := mask_reg_byte _ _ _
theorem EncodeMatchesTable.ldReg (x y : Reg) : EncodeMatchesTable.Statement (.ldReg x y) := mask_reg_reg _ _ _ _
theorem EncodeMatchesTable.orReg (x y : Reg) : EncodeMatchesTable.Statement (.orReg x y) := mask_reg_reg _ _ _ _
theorem EncodeMatchesTable.andReg (x y : Reg) : EncodeMatchesTable.Statement (.andReg x y) := mask_reg_reg _ _ _ _
theorem EncodeMatchesTable.xorReg (x y : Reg) : EncodeMatchesTable.Statement (.xorReg x y) := mask_reg_reg _ _ _ _
theorem EncodeMatchesTable.addReg (x y : Reg) : EncodeMatchesTable.Statement (.addReg x y) := mask_reg_reg _ _ _ _
theorem EncodeMatchesTable.sub (x y : Reg) : EncodeMatchesTable.Statement (.sub x y) := mask_reg_reg _ _ _ _
theorem EncodeMatchesTable.shr (x y : Reg) : EncodeMatchesTable.Statement (.shr x y) := mask_reg_reg _ _ _ _
theorem EncodeMatchesTable.subn (x y : Reg) : EncodeMatchesTable.Statement (.subn x y) := mask_reg_reg _ _ _ _
theorem EncodeMatchesTable.shl (x y : Reg) : EncodeMatchesTable.Statement (.shl x y) := mask_reg_reg _ _ _ _
theorem EncodeMatchesTable.sneReg (x y : Reg) : EncodeMatchesTable.Statement (.sneReg x y) := mask_reg_reg _ _ _ _
theorem EncodeMatchesTable.ldI (nnn : Addr12) : EncodeMatchesTable.Statement (.ldI nnn) := mask_addr _ _
theorem EncodeMatchesTable.jpV0 (nnn : Addr12) : EncodeMatchesTable.Statement (.jpV0 nnn) := mask_addr _ _
theorem EncodeMatchesTable.rnd (x : Reg) (nn : Byte) : EncodeMatchesTable.Statement (.rnd x nn) := mask_reg_byte _ _ _
theorem EncodeMatchesTable.drw (x y : Reg) (n : BitVec 4) : EncodeMatchesTable.Statement (.drw x y n) := mask_reg_reg_nibble _ _ _ _
theorem EncodeMatchesTable.skp (x : Reg) : EncodeMatchesTable.Statement (.skp x) := mask_reg _ _ _
theorem EncodeMatchesTable.sknp (x : Reg) : EncodeMatchesTable.Statement (.sknp x) := mask_reg _ _ _
theorem EncodeMatchesTable.ldVxDt (x : Reg) : EncodeMatchesTable.Statement (.ldVxDt x) := mask_reg _ _ _
theorem EncodeMatchesTable.ldVxK (x : Reg) : EncodeMatchesTable.Statement (.ldVxK x) := mask_reg _ _ _
theorem EncodeMatchesTable.ldDtVx (x : Reg) : EncodeMatchesTable.Statement (.ldDtVx x) := mask_reg _ _ _
theorem EncodeMatchesTable.ldStVx (x : Reg) : EncodeMatchesTable.Statement (.ldStVx x) := mask_reg _ _ _
theorem EncodeMatchesTable.addIVx (x : Reg) : EncodeMatchesTable.Statement (.addIVx x) := mask_reg _ _ _
theorem EncodeMatchesTable.ldFVx (x : Reg) : EncodeMatchesTable.Statement (.ldFVx x) := mask_reg _ _ _
theorem EncodeMatchesTable.ldBVx (x : Reg) : EncodeMatchesTable.Statement (.ldBVx x) := mask_reg _ _ _
theorem EncodeMatchesTable.stRegs (x : Reg) : EncodeMatchesTable.Statement (.stRegs x) := mask_reg _ _ _
theorem EncodeMatchesTable.ldRegs (x : Reg) : EncodeMatchesTable.Statement (.ldRegs x) := mask_reg _ _ _

end Sys2Proof.Laws
end

