-- ==== Sys2Proof/Laws/Step.lean ====
section
/-! SUPPORT. Everything one step, one event and one tick can do, said once. -/

namespace Sys2Proof.Machine

/-- The four things a step can do (spec/40_execution_cycle.md R120): nothing when halted; the key-wait poll; an error of the
fetch or of the decode; or the instruction decoded. -/
theorem step_cases (s : State) :
    (s.halted = true ∧ step s = .next s) ∨
    (s.halted = false ∧ s.wait = true ∧ step s = .next s.keyWaitPoll) ∨
    (s.halted = false ∧ s.wait = false ∧ ∃ a, s.fetch = .error a ∧ step s = raiseBounds a 0x0000#16 s) ∨
    (s.halted = false ∧ s.wait = false ∧ ∃ w e, s.fetch = .ok w ∧ decode w = .error e ∧
      step s = raise .decodeError s.pc w s) ∨
    (s.halted = false ∧ s.wait = false ∧ ∃ w i, s.fetch = .ok w ∧ decode w = .ok i ∧ step s = exec i s) := by
  unfold step
  by_cases hh : s.halted = true
  · exact .inl ⟨hh, by rw [if_pos hh]⟩
  · rw [if_neg hh]
    have hh' : s.halted = false := by simpa using hh
    by_cases hw : s.wait = true
    · exact .inr (.inl ⟨hh', hw, by rw [if_pos hw]⟩)
    · rw [if_neg hw]
      have hw' : s.wait = false := by simpa using hw
      cases hf : s.fetch with
      | error a => exact .inr (.inr (.inl ⟨hh', hw', a, rfl, rfl⟩))
      | ok w =>
        cases hd : decode w with
        | error e => exact .inr (.inr (.inr (.inl ⟨hh', hw', w, e, rfl, hd, by simp [hd]⟩)))
        | ok i => exact .inr (.inr (.inr (.inr ⟨hh', hw', w, i, rfl, hd, by simp [hd]⟩)))

/-- The phases after the step batch of a tick leave everything but the timers, the outputs and the keys. -/
theorem finishTick_eq (k : Word) (s : State) :
    finishTick k s =
      { s with dt := (finishTick k s).dt, st := (finishTick k s).st, frameOut := (finishTick k s).frameOut,
               soundOut := (finishTick k s).soundOut, keys := (finishTick k s).keys } := by
  unfold finishTick setKeys frameOut timerTick
  repeat' split
  all_goals rfl

/-- A property that every step keeps holds after the step batch of a tick. -/
theorem runSteps_keeps {P : State → Prop} (hP : ∀ s t, P s → step s = .next t → P t) (n : Nat) {s t : State} (hs : P s)
    (h : runSteps n s = .next t) : P t := by
  induction n generalizing s with
  | zero =>
    cases h
    exact hs
  | succ n ih =>
    unfold runSteps at h
    split at h
    · cases h
      exact hs
    · split at h
      · exact ih (hP _ _ hs ‹_›) h
      · cases h
      · cases h

/-- A property that every event keeps holds after every sequence of events. -/
theorem fireAll_keeps {P : State → Prop} (hP : ∀ e s t, P s → fire e s = .next t → P t) (es : List Event) {s t : State}
    (hs : P s) (h : fireAll es s = .next t) : P t := by
  induction es generalizing s with
  | nil =>
    cases h
    exact hs
  | cons e es ih =>
    unfold fireAll at h
    split at h
    · exact ih (hP _ _ _ hs ‹_›) h
    · cases h
    · cases h

end Sys2Proof.Machine
end

