-- ==== Sys2Proof/Tests/Slice0.lean ====
section
/-! SUPPORT. The model's own tests, each expected result taken from spec/95_test_vectors.md or worked out from the rule its
comment names: the WellFormed smoke, the words of the decoder, one step of each instruction, the events, and for each
obligation with hypotheses a witness that meets them. -/

namespace Sys2Proof.Tests

open Sys2Proof Sys2Proof.Machine Sys2Proof.Safety

/-! ### WellFormed: a term for each check, and one beside it that passes -/

/-- The word of `SYS 0x0E0` would be 00E0, which is `CLS` (R97). -/
theorem test_sys_0E0_is_ill_formed : (Instr.sys 0x0E0#12).wf = false := by decide
/-- The word of `SYS 0x0EE` would be 00EE, which is `RET` (R97). -/
theorem test_sys_0EE_is_ill_formed : (Instr.sys 0x0EE#12).wf = false := by decide
theorem test_sys_0E1_is_well_formed : (Instr.sys 0x0E1#12).wf = true := by decide
theorem test_wf_refuses_nothing_else : (Instr.drw 0xF#4 0xF#4 0x0#4).wf = true ∧ Instr.ret.wf = true := by decide

/-! ### Decoding: one word for each row of R96, from the table of 95_test_vectors.md 2.1 -/

theorem test_decode_sys : decode 0x0FFF#16 = .ok (.sys 0xFFF#12) := by rfl
theorem test_decode_sys_beside_cls : decode 0x00E1#16 = .ok (.sys 0x0E1#12) := by rfl
theorem test_decode_cls : decode 0x00E0#16 = .ok .cls := by rfl
theorem test_decode_ret : decode 0x00EE#16 = .ok .ret := by rfl
theorem test_decode_jp : decode 0x1234#16 = .ok (.jp 0x234#12) := by rfl
theorem test_decode_call : decode 0x2ABC#16 = .ok (.call 0xABC#12) := by rfl
theorem test_decode_seImm : decode 0x3A42#16 = .ok (.seImm 0xA#4 0x42#8) := by rfl
theorem test_decode_sneImm : decode 0x4F00#16 = .ok (.sneImm 0xF#4 0x00#8) := by rfl
theorem test_decode_seReg : decode 0x5AB0#16 = .ok (.seReg 0xA#4 0xB#4) := by rfl
theorem test_decode_ldImm : decode 0x6C7F#16 = .ok (.ldImm 0xC#4 0x7F#8) := by rfl
theorem test_decode_addImm : decode 0x7001#16 = .ok (.addImm 0x0#4 0x01#8) := by rfl
theorem test_decode_ldReg : decode 0x8AB0#16 = .ok (.ldReg 0xA#4 0xB#4) := by rfl
theorem test_decode_orReg : decode 0x8AB1#16 = .ok (.orReg 0xA#4 0xB#4) := by rfl
theorem test_decode_andReg : decode 0x8AB2#16 = .ok (.andReg 0xA#4 0xB#4) := by rfl
theorem test_decode_xorReg : decode 0x8AB3#16 = .ok (.xorReg 0xA#4 0xB#4) := by rfl
theorem test_decode_addReg : decode 0x8AB4#16 = .ok (.addReg 0xA#4 0xB#4) := by rfl
theorem test_decode_sub : decode 0x8AB5#16 = .ok (.sub 0xA#4 0xB#4) := by rfl
theorem test_decode_shr : decode 0x8AB6#16 = .ok (.shr 0xA#4 0xB#4) := by rfl
theorem test_decode_subn : decode 0x8AB7#16 = .ok (.subn 0xA#4 0xB#4) := by rfl
theorem test_decode_shl : decode 0x8ABE#16 = .ok (.shl 0xA#4 0xB#4) := by rfl
theorem test_decode_sneReg : decode 0x9AB0#16 = .ok (.sneReg 0xA#4 0xB#4) := by rfl
theorem test_decode_ldI : decode 0xA123#16 = .ok (.ldI 0x123#12) := by rfl
theorem test_decode_jpV0 : decode 0xB123#16 = .ok (.jpV0 0x123#12) := by rfl
theorem test_decode_rnd : decode 0xC10F#16 = .ok (.rnd 0x1#4 0x0F#8) := by rfl
theorem test_decode_drw : decode 0xD125#16 = .ok (.drw 0x1#4 0x2#4 0x5#4) := by rfl
theorem test_decode_skp : decode 0xE19E#16 = .ok (.skp 0x1#4) := by rfl
theorem test_decode_sknp : decode 0xE1A1#16 = .ok (.sknp 0x1#4) := by rfl
theorem test_decode_ldVxDt : decode 0xF107#16 = .ok (.ldVxDt 0x1#4) := by rfl
theorem test_decode_ldVxK : decode 0xF10A#16 = .ok (.ldVxK 0x1#4) := by rfl
theorem test_decode_ldDtVx : decode 0xF115#16 = .ok (.ldDtVx 0x1#4) := by rfl
theorem test_decode_ldStVx : decode 0xF118#16 = .ok (.ldStVx 0x1#4) := by rfl
theorem test_decode_addIVx : decode 0xF11E#16 = .ok (.addIVx 0x1#4) := by rfl
theorem test_decode_ldFVx : decode 0xF129#16 = .ok (.ldFVx 0x1#4) := by rfl
theorem test_decode_ldBVx : decode 0xF133#16 = .ok (.ldBVx 0x1#4) := by rfl
theorem test_decode_stRegs : decode 0xF155#16 = .ok (.stRegs 0x1#4) := by rfl
theorem test_decode_ldRegs : decode 0xF165#16 = .ok (.ldRegs 0x1#4) := by rfl

/-- The words 95_test_vectors.md 2.1 lists as DecodeError. -/
theorem test_decode_errors :
    (∀ w ∈ [0x5123#16, 0x5AB1#16, 0x8AB8#16, 0x8AB9#16, 0x8ABA#16, 0x8ABB#16, 0x8ABC#16, 0x8ABD#16, 0x8ABF#16, 0x9AB1#16],
      decode w = .error .decodeError) ∧
    (∀ w ∈ [0xE19F#16, 0xE000#16, 0xE1A0#16, 0xF000#16, 0xF108#16, 0xF130#16, 0xF175#16, 0xF185#16, 0xFFFF#16],
      decode w = .error .decodeError) := by
  constructor <;> intro w hw <;> fin_cases hw <;> rfl
/-- R91: the byte at the lower address is the high byte. -/
theorem test_decode_bytes : decodeBytes [0xAB#8, 0xCD#8, 0x12#8] = .ok (.ldI 0xBCD#12, [0x12#8]) := by rfl
theorem test_decode_bytes_too_few : decodeBytes [0xAB#8] = .error .truncated := by rfl
theorem test_table_word : decodeTableWord 16 0xF33A = none ∧ decodeTableWord 16 0xF30A = some (.ldVxK 0x3#4) := by decide

/-! ### One step of each instruction -/

/-- One step from the state after reset, changed by `before`, with the word `w` where the step fetches: it gives a next state
that passes `ok`. -/
def runs (w : Nat) (before : State → State) (ok : State → Bool) : Bool :=
  match step ((before State.reset).withFetchWord 16 w) with
  | .next t => ok t
  | .fault _ => false
  | .refused _ => false

/-- The vectors' way of saying an error was taken under `halt`: `ERR` and `pc` as given. -/
def erred (t : State) (k : ErrorKind) (addr word pc : Word) : Bool :=
  t.err == ⟨k, addr, word⟩ && t.pc == pc && t.halted

/-- Whether the lit pixels of a row are those of the number `r`, bit `x` for column `x`. -/
def rowIs (t : State) (y : Fin 32) (r : Nat) : Bool := t.fb[y.val]'y.isLt == BitVec.ofNat 64 r

theorem test_T1_sys : runs 0x0123 id (fun t => t.pc == 0x202 && t.v == State.reset.v && t.i == 0) = true := by decide
theorem test_T2_all_zero_word :
    runs 0x0000 (fun s => { s with fb := s.fb.set 0 1 }.setReg 3 7)
      (fun t => t.getReg 3 == 7 && t.pc == 0x202 && rowIs t 0 1) = true := by
  decide
theorem test_T3_ret :
    runs 0x00EE (fun s => { s with sp := 2, stack := (s.stack.set 0 0x0204).set 1 0x0ABC })
      (fun t => t.pc == 0x0ABC && t.sp == 1) = true := by
  decide
theorem test_T4_ret_empty :
    runs 0x00EE id
      (fun t => erred t .stackUnderflow 0x0200 0x00EE 0x0200 && t.sp == 0) = true := by
  decide
theorem test_T5_jp : runs 0x1ABC id (fun t => t.pc == 0x0ABC) = true := by decide
theorem test_T7_jp_odd : runs 0x1FFF id (fun t => t.pc == 0x0FFF) = true := by decide
theorem test_T9_call_last_entry :
    runs 0x2300 (fun s => { s with sp := 15, pc := 0x456 })
      (fun t => t.pc == 0x300 && t.sp == 16 && t.stack[15] == 0x0458) = true := by
  decide
theorem test_T10_call_full :
    runs 0x2300 (fun s => { s with sp := 16 })
      (fun t => erred t .stackOverflow 0x0200 0x2300 0x0200 && t.sp == 16 && t.stack == State.reset.stack) = true := by
  decide
theorem test_T12_se_imm : runs 0x3A42 (fun s => s.setReg 0xA 0x42) (fun t => t.pc == 0x204) = true := by decide
theorem test_T13_se_imm_not : runs 0x3A42 (fun s => s.setReg 0xA 0x43) (fun t => t.pc == 0x202) = true := by decide
theorem test_T14_sne_imm_not : runs 0x4A42 (fun s => s.setReg 0xA 0x42) (fun t => t.pc == 0x202) = true := by decide
theorem test_T15_sne_imm : runs 0x4A42 (fun s => s.setReg 0xA 0x43) (fun t => t.pc == 0x204) = true := by decide
theorem test_T17_se_reg_not : runs 0x5120 (fun s => (s.setReg 1 9).setReg 2 8) (fun t => t.pc == 0x202) = true := by decide
theorem test_T18_se_reg_same : runs 0x5330 (fun s => s.setReg 3 0x77) (fun t => t.pc == 0x204) = true := by decide
theorem test_T19_sne_reg_not : runs 0x9120 (fun s => (s.setReg 1 9).setReg 2 9) (fun t => t.pc == 0x202) = true := by decide
theorem test_T20_sne_reg : runs 0x9120 (fun s => (s.setReg 1 9).setReg 2 8) (fun t => t.pc == 0x204) = true := by decide
theorem test_T21_jp_v0 : runs 0xB300 (fun s => s.setReg 0 0x10) (fun t => t.pc == 0x310) = true := by decide
theorem test_T22_jp_v0_unmasked : runs 0xBFFF (fun s => s.setReg 0 0xFF) (fun t => t.pc == 0x10FE) = true := by decide
theorem test_A1_ld_imm : runs 0x6A42 id (fun t => t.getReg 0xA == 0x42 && t.pc == 0x202) = true := by decide
theorem test_A2_ld_imm_vf : runs 0x6F01 (fun s => s.setReg 0xF 0xEE) (fun t => t.getReg 0xF == 0x01) = true := by decide
theorem test_A3_add_imm_wraps :
    runs 0x7A01 (fun s => (s.setReg 0xA 0xFF).setReg 0xF 7)
      (fun t => t.getReg 0xA == 0 && t.getReg 0xF == 7 && t.pc == 0x202) = true := by
  decide
theorem test_A6_ld_reg :
    runs 0x8120 (fun s => (s.setReg 1 1).setReg 2 0x99)
      (fun t => t.getReg 1 == 0x99 && t.getReg 2 == 0x99 && t.pc == 0x202) = true := by
  decide
theorem test_A7_or :
    runs 0x8121 (fun s => ((s.setReg 1 0xF0).setReg 2 0x0F).setReg 0xF 1)
      (fun t => t.getReg 1 == 0xFF && t.getReg 0xF == 1) = true := by
  decide
theorem test_A8_or_quirk :
    runs 0x8121 (fun s => { ((s.setReg 1 0xF0).setReg 2 0x0F).setReg 0xF 1 with cfg := { s.cfg
        with logicResetsVF := true } })
      (fun t => t.getReg 1 == 0xFF && t.getReg 0xF == 0) = true := by
  decide
theorem test_A9_and :
    runs 0x8122 (fun s => (s.setReg 1 0xFC).setReg 2 0x3F)
      (fun t => t.getReg 1 == 0x3C && t.getReg 2 == 0x3F) = true := by
  decide
theorem test_A10_xor :
    runs 0x8123 (fun s => (s.setReg 1 0xFF).setReg 2 0x0F)
      (fun t => t.getReg 1 == 0xF0) = true := by
  decide
theorem test_A11_xor_same : runs 0x8113 (fun s => s.setReg 1 0x5A) (fun t => t.getReg 1 == 0) = true := by decide
theorem test_A14_add_carry :
    runs 0x8124 (fun s => (s.setReg 1 0xFF).setReg 2 1)
      (fun t => t.getReg 1 == 0 && t.getReg 0xF == 1) = true := by
  decide
theorem test_A17_add_to_vf :
    runs 0x8F14 (fun s => (s.setReg 0xF 0xF0).setReg 1 0x20)
      (fun t => t.getReg 0xF == 1) = true := by
  decide
theorem test_A20_sub_borrow :
    runs 0x8125 (fun s => (s.setReg 1 5).setReg 2 7)
      (fun t => t.getReg 1 == 0xFE && t.getReg 0xF == 0) = true := by
  decide
theorem test_A22_sub_equal :
    runs 0x8125 (fun s => (s.setReg 1 7).setReg 2 7)
      (fun t => t.getReg 1 == 0 && t.getReg 0xF == 1) = true := by
  decide
theorem test_A26_subn :
    runs 0x8127 (fun s => (s.setReg 1 5).setReg 2 7)
      (fun t => t.getReg 1 == 2 && t.getReg 0xF == 1) = true := by
  decide
theorem test_A27_subn_borrow :
    runs 0x8127 (fun s => (s.setReg 1 7).setReg 2 5)
      (fun t => t.getReg 1 == 0xFE && t.getReg 0xF == 0) = true := by
  decide
theorem test_A29_shr :
    runs 0x8126 (fun s => (s.setReg 1 0x05).setReg 2 0xF0)
      (fun t => t.getReg 1 == 0x02 && t.getReg 2 == 0xF0 && t.getReg 0xF == 1) = true := by
  decide
theorem test_A30_shr_quirk :
    runs 0x8126 (fun s => { (s.setReg 1 0x05).setReg 2 0xF0 with cfg := { s.cfg with shiftSrc := .vy } })
      (fun t => t.getReg 1 == 0x78 && t.getReg 2 == 0xF0 && t.getReg 0xF == 0) = true := by
  decide
theorem test_A34_shl :
    runs 0x812E (fun s => (s.setReg 1 0x81).setReg 2 0x01)
      (fun t => t.getReg 1 == 0x02 && t.getReg 2 == 0x01 && t.getReg 0xF == 1) = true := by
  decide
theorem test_A35_shl_quirk :
    runs 0x812E (fun s => { (s.setReg 1 0x81).setReg 2 0x01 with cfg := { s.cfg with shiftSrc := .vy } })
      (fun t => t.getReg 1 == 0x02 && t.getReg 2 == 0x01 && t.getReg 0xF == 0) = true := by
  decide
theorem test_A40_rnd_takes_one_draw :
    runs 0xC300 (fun s => s.setReg 3 9)
      (fun t => t.draws == 1 && t.pc == 0x202) = true := by
  decide
theorem test_M2_ld_i : runs 0xAFFF id (fun t => t.i == 0xFFF && t.pc == 0x202) = true := by decide
theorem test_M4_add_i_wraps :
    runs 0xF11E (fun s => { (s.setReg 1 2).setReg 0xF 5 with i := 0xFFF })
      (fun t => t.i == 0x001 && t.getReg 0xF == 5 && t.pc == 0x202) = true := by
  decide
theorem test_M5_add_i_to_zero :
    runs 0xF11E (fun s => { s.setReg 1 0xFF with i := 0xF01 })
      (fun t => t.i == 0x000) = true := by
  decide
theorem test_M8_ld_f : runs 0xF029 (fun s => s.setReg 0 0x0F) (fun t => t.i == 0x09B && t.pc == 0x202) = true := by decide
theorem test_M9_ld_f_low_nibble : runs 0xF029 (fun s => s.setReg 0 0x1A) (fun t => t.i == 0x082) = true := by decide
theorem test_M12_bcd_last :
    runs 0xF033 (fun s => { s.setReg 0 255 with i := 0xFFD })
      (fun t => t.readByte 0xFFD == 2 && t.readByte 0xFFE == 5 && t.readByte 0xFFF == 5 && t.i == 0xFFD) = true := by
  decide
theorem test_M13_bcd_out :
    runs 0xF033 (fun s => { s.setReg 0 255 with i := 0xFFE })
      (fun t => erred t .memoryBoundsError 0x1000 0xF033 0x0200 && t.readByte 0xFFE == 0 &&
        t.readByte 0xFFF == 0) = true := by
  decide
theorem test_M15_dump_quirk :
    runs 0xF255 (fun s => { (((s.setReg 0 0x11).setReg 1 0x22).setReg 2 0x33).setReg 3 0x44
        with i := 0x400, cfg := { s.cfg with memIncrI := true } })
      (fun t => t.i == 0x403 && t.readByte 0x400 == 0x11 && t.readByte 0x402 == 0x33 && t.readByte 0x403 == 0) = true := by
  decide
theorem test_M17_dump_out :
    runs 0xF155 (fun s => { (s.setReg 0 0x99).setReg 1 0x88 with i := 0xFFF })
      (fun t => erred t .memoryBoundsError 0x1000 0xF155 0x0200 && t.readByte 0xFFF == 0 && t.i == 0xFFF) = true := by
  decide
theorem test_M21_load_out :
    runs 0xF165 (fun s => { ((s.setReg 0 5).setReg 1 6).writeByte 0xFFF 0x77 with i := 0xFFF })
      (fun t => erred t .memoryBoundsError 0x1000 0xF165 0x0200 && t.getReg 0 == 5 && t.getReg 1 == 6) = true := by
  decide
theorem test_M23_load_all :
    runs 0xFF65 (fun s => { s.setReg 0xF 9 with i := 0x200 })
      (fun t => t.getReg 0 == 0xFF && t.getReg 1 == 0x65 && t.getReg 2 == 0 && t.getReg 0xF == 0 &&
        t.i == 0x200) = true := by
  decide
theorem test_D1_cls :
    runs 0x00E0 (fun s => { (s.setReg 0xF 1) with fb := (s.fb.set 0 1).set 31 (1#64 <<< 63) })
      (fun t => rowIs t 0 0 && rowIs t 31 0 && t.getReg 0xF == 1 && t.pc == 0x202) = true := by
  decide
theorem test_D8_draw_wraps :
    runs 0xD121 (fun s => { ((s.writeByte 0x300 0xC0).setReg 1 255).setReg 2 255 with i := 0x300 })
      (fun t => rowIs t 31 (2 ^ 63 + 1) && rowIs t 0 0 && t.getReg 0xF == 0) = true := by
  decide
theorem test_D9_draw_collides :
    runs 0xD121 (fun s => { s.writeByte 0x300 0xF0 with i := 0x300, fb := s.fb.set 0 0b11000 })
      (fun t => rowIs t 0 0b10111 && t.getReg 0xF == 1 && t.pc == 0x202) = true := by
  decide
theorem test_K5_skp_low_nibble :
    runs 0xE19E (fun s => { s.setReg 1 0xF5 with keys := 0x0020 })
      (fun t => t.pc == 0x204) = true := by
  decide
theorem test_K2_skp_not :
    runs 0xE19E (fun s => { s.setReg 1 5 with keys := 0xFFDF })
      (fun t => t.pc == 0x202) = true := by
  decide
theorem test_K3_sknp_not :
    runs 0xE1A1 (fun s => { s.setReg 1 5 with keys := 0x0020 })
      (fun t => t.pc == 0x202) = true := by
  decide
theorem test_K4_sknp : runs 0xE1A1 (fun s => s.setReg 1 5) (fun t => t.pc == 0x204) = true := by decide
theorem test_K8_ld_vx_dt :
    runs 0xF307 (fun s => { s.setReg 3 1 with dt := 0x2A })
      (fun t => t.getReg 3 == 0x2A && t.dt == 0x2A && t.pc == 0x202) = true := by
  decide
theorem test_K9_ld_dt :
    runs 0xF315 (fun s => s.setReg 3 0x3C)
      (fun t => t.dt == 60 && t.st == 0 && t.pc == 0x202) = true := by
  decide
theorem test_K10_ld_st :
    runs 0xF318 (fun s => s.setReg 3 0x3C)
      (fun t => t.st == 60 && t.dt == 0 && t.pc == 0x202) = true := by
  decide
theorem test_K13_key_wait_starts :
    runs 0xF30A (fun s => { s with keys := 0x0100 })
      (fun t => t.wait && t.waitX == 3 && t.pc == 0x200 && t.getReg 3 == 0) = true := by
  decide
theorem test_T26_decode_error : runs 0x5123 id (fun t => erred t .decodeError 0x0200 0x5123 0x0200) = true := by decide

/-- R171 with the free answer left as it is: register, count and `pc`, and nothing else (vector A39 with any answer). -/
theorem test_rnd_masks_the_free_answer :
    let s := State.reset.withFetchWord 16 0xC30F
    step s = .next { s with v := s.v.set 3 (Config.randByte 0 &&& 0x0F#8), draws := 1, pc := 0x202 } := by rfl

/-! ### The key-wait poll, the errors of a fetch, permissive mode -/

/-- One step from a state, which gives a next state that passes `ok`. -/
def steps (s : State) (ok : State → Bool) : Bool :=
  match step s with
  | .next t => ok t
  | .fault _ => false
  | .refused _ => false

/-- K15, its second step: keys 4, 7, F down, the lowest wins. -/
theorem test_K15_lowest_key :
    steps { State.reset with wait := true, waitX := 3, keys := 0x8090 }
      (fun t => t.getReg 3 == 4 && t.pc == 0x202 && !t.wait) = true := by decide
/-- K16: no key down. -/
theorem test_K16_idle_poll :
    step { State.reset with wait := true, waitX := 3 } = .next { State.reset with wait := true, waitX := 3 } := by rfl
theorem test_E15_fetch_at_FFF :
    steps { State.reset with pc := 0xFFF } (fun t => erred t .memoryBoundsError 0x1000 0x0000 0x0FFF) = true := by decide
theorem test_E16_fetch_beyond :
    steps { State.reset with pc := 0x10FE } (fun t => erred t .memoryBoundsError 0x10FE 0x0000 0x10FE) = true := by decide
/-- E17: the last word of memory is executable. -/
theorem test_E17_last_word :
    steps ({ State.reset with pc := 0xFFE }.writeBytes 0xFFE [0x60, 0x07])
      (fun t => t.getReg 0 == 7 && t.pc == 0x1000 && t.err.kind == .none) = true := by decide
/-- E13: a step of a halted machine changes nothing. -/
theorem test_E13_halted :
    step { State.reset with err := ⟨.stackUnderflow, 0x0200, 0x00EE⟩ } =
      .next { State.reset with err := ⟨.stackUnderflow, 0x0200, 0x00EE⟩ } := by rfl
/-- P5 (f): the error is recorded, `pc` moves on, nothing halts. -/
theorem test_P5f_permissive :
    runs 0x5123 (fun s => { s with cfg := { s.cfg with errorPolicy := .permissive } })
      (fun t => t.err == ⟨.decodeError, 0x0200, 0x5123⟩ && t.pc == 0x202 && !t.halted) = true := by decide
/-- M24: the bytes stored at 0x202 are the next word fetched (R73). -/
theorem test_M24_store_then_fetch :
    runs 0xF155 (fun s => { (s.setReg 0 0x12).setReg 1 0x08 with i := 0x202 })
      (fun t => t.pc == 0x202 && (match t.fetch with
        | .ok w => w == 0x1208
        | .error _ => false)) = true := by decide
/-- Log entry 6: at reset `withFetchWord` changes memory only, at 0x200 and 0x201. -/
theorem test_withFetchWord_at_reset :
    State.reset.withFetchWord 16 0x1204 = { State.reset with mem := [(0x200, 0x12), (0x201, 0x04)] } := by decide

/-! ### Events -/

theorem test_E1_timer : (timerTick { State.reset with dt := 5 }).dt = 4 ∧ (timerTick { State.reset with dt := 5 }).st = 0 := by
  decide
theorem test_E2_no_wrap : (timerTick State.reset).dt = 0 ∧ (timerTick State.reset).st = 0 := by decide
theorem test_E3_sound_after_decrement : (frameOut (timerTick { State.reset with st := 1 })).soundOut = false := by decide
theorem test_E4_sound_on : (frameOut (timerTick { State.reset with st := 2 })).soundOut = true := by decide
theorem test_E5_timers_run_in_a_wait : (timerTick { State.reset with dt := 3, wait := true }).dt = 2 := by decide
theorem test_E6_quirk_stops_them :
    (timerTick { State.reset with dt := 3, wait := true, cfg := { Config.default with keyWaitHaltsTimers := true } }).dt = 3 := by
  decide
theorem test_E7_halted : (timerTick { State.reset with dt := 3, err := ⟨.decodeError, 0, 0⟩ }).dt = 3 := by decide
theorem test_E8_setKeys_replaces : (setKeys 0x8002 { State.reset with keys := 0x0001 }).keys = 0x8002 := by decide
theorem test_E10_frame :
    (frameOut { State.reset with fb := State.reset.fb.set 2 0b1000 }).frameOut.pixel 3 2 = true := by decide
/-- E11: the ROM `12 00`, from a state that is not the reset state. -/
theorem test_E11_reset :
    resetRom [0x12, 0x00] { State.reset with pc := 0x300, wait := true, dt := 9, mem := [(0x050, 0x00)] } =
      .next { State.reset with mem := [(0x200, 0x12)] } := by rfl
/-- S12, E12. -/
theorem test_E12_rom_too_long : resetRom (List.replicate 3585 0x00) State.reset = .fault .romLoadError := by
  rw [resetRom, if_neg (by rw [List.length_replicate]; decide)]
/-- S11, R227. -/
theorem test_S11_steps_per_tick :
    (SpeedKnob.choose none none).stepsPerTick = 10 ∧ (SpeedKnob.choose none (some 500)).stepsPerTick = 8 ∧
    (SpeedKnob.choose none (some 59)).stepsPerTick = 0 ∧ (SpeedKnob.choose (some 7) (some 600)).stepsPerTick = 7 := by decide
/-- The codes of R210. -/
theorem test_error_codes :
    [ErrorKind.none, .decodeError, .memoryBoundsError, .stackOverflow, .stackUnderflow].map ErrorKind.code =
      [0#3, 1#3, 2#3, 3#3, 4#3] ∧ romLoadErrorCode = 5#3 := by decide
/-- The font ends at 0x09F (R37): the first and the last byte of it, and the bytes beside it. -/
theorem test_font : State.reset.readByte 0x050 = 0xF0 ∧ State.reset.readByte 0x09F = 0x80 ∧ State.reset.readByte 0x04F = 0 ∧
    State.reset.readByte 0x0A0 = 0 := by decide
/-- A store of the byte an unlisted address reads as takes the entry out (log entry 4). -/
theorem test_memory_stays_canonical :
    (State.reset.writeByte 0x300 0x07).mem = [(0x300, 0x07)] ∧ ((State.reset.writeByte 0x300 0x07).writeByte 0x300 0x00).mem = [] ∧
    ((State.reset.writeByte 0x050 0x07).writeByte 0x050 0xF0).mem = [] := by decide
/-- The smoke of the invariant's memory check: out of order, out of the space, or equal to the reset byte is refused. -/
theorem test_memory_wf_refuses :
    Memory.wf Config.default [(0x301, 0x01), (0x300, 0x01)] = false ∧ Memory.wf Config.default [(0x1000, 0x01)] = false ∧
    Memory.wf Config.default [(0x300, 0x00)] = false ∧ Memory.wf Config.default [(0x300, 0x01), (0x301, 0x01)] = true := by decide
theorem test_config_wf :
    Config.default.wf = true ∧ { Config.default with fontBase := 0x1B0 }.wf = true ∧
    { Config.default with fontBase := 0x1B1 }.wf = false := by decide

/-! ### Witnesses: a concrete state and operands that meet the hypotheses of each obligation, at the boundaries of each clause -/

/-- A state with one register, the index, the keys and the timers not at their reset values. -/
def busy : State := { (State.reset.setReg 0x1 0x07).writeByte 0x300 0xF0 with i := 0x300, keys := 0x8090, dt := 3, st := 2 }

/-- The default configuration with `ERROR_POLICY = permissive`. -/
def permissive : Config := { Config.default with errorPolicy := .permissive }

/-- A halted state. -/
def stopped : State := { busy with err := ⟨.decodeError, 0x0200, 0x5123⟩ }

/-- A state in a key wait, at its `LD V3, K`. -/
def waiting : State := { State.reset with mem := [(0x200, 0xF3), (0x201, 0x0A)], wait := true, waitX := 3, keys := 0x8090 }

theorem witness_DecodeOfEncodeIsTheInstruction : (Instr.sys 0x0EF#12).wf = true ∧ (Instr.shl 0xF#4 0xF#4).wf = true := by decide
theorem witness_EncodeOfDecodeIsTheWord : decode 0x00EF#16 = .ok (.sys 0x0EF#12) ∧ decode 0xDFFF#16 = .ok (.drw 0xF#4 0xF#4 0xF#4) :=
  ⟨rfl, rfl⟩
theorem witness_StepRunsTheDecodedInstruction :
    busy.halted = false ∧ busy.wait = false ∧ { busy with pc := 0xFFE }.pc.toNat ≤ 0xFFE ∧
    decode (wordOfBytes ({ busy with pc := 0xFFE }.readByte 0xFFE) ({ busy with pc := 0xFFE }.readByte 0xFFF)) =
      .ok (.sys 0x000#12) := ⟨by decide, by decide, by decide, rfl⟩
theorem witness_HaltedStepChangesNothing :
    (stopped.cfg.errorPolicy = .halt ∧ stopped.err.kind ≠ .none) ∧ { stopped with cfg := permissive }.cfg.errorPolicy = .permissive := by
  decide
theorem witness_KeyWaitPollTakesTheLowestKey :
    (waiting.halted = false ∧ waiting.wait = true) ∧ { waiting with keys := 0x0000 }.keys = 0x0000#16 ∧
    (waiting.keys.getLsbD 4 = true ∧ ∀ j < 4, waiting.keys.getLsbD j = false) ∧
    { waiting with keys := 0x8000 }.keys.getLsbD 15 = true ∧ (∀ j < 15, (0x8000#16).getLsbD j = false) := by decide
theorem witness_FetchIsBigEndianAndBounded :
    { busy with pc := 0xFFE }.pc.toNat ≤ 0xFFE ∧ 0xFFE < { busy with pc := 0xFFF }.pc.toNat ∧
    { busy with pc := 0xFFF }.halted = false ∧ { busy with pc := 0xFFF }.wait = false := by decide
theorem witness_UndecodableWordTakesDecodeError :
    (busy.withFetchWord 16 0x5123).halted = false ∧ (busy.withFetchWord 16 0x5123).wait = false ∧
    (busy.withFetchWord 16 0x5123).fetch = .ok 0x5123#16 ∧ decode 0x5123#16 = .error .decodeError :=
  ⟨by decide, by decide, rfl, rfl⟩
theorem witness_ErrorUnderHaltWritesOnlyErr : busy.cfg.errorPolicy = .halt ∧ ErrorKind.stackOverflow ≠ .none := by decide
/-- The state after a permissive error: at the next instruction, or, in a state no run reaches, with a wait pending. -/
theorem witness_ErrorUnderPermissiveMovesOn :
    { busy with cfg := permissive }.cfg.errorPolicy = .permissive ∧
    (∃ t, raise .stackUnderflow 0x0200#16 0x00EE#16 { busy with cfg := permissive } = .next t ∧ t.wait = false ∧
      t.fetch = .ok 0x0000#16 ∧ decode 0x0000#16 = .ok (.sys 0x000#12)) ∧
    (∃ t, raise .decodeError 0x0200#16 0x5123#16 { waiting with cfg := permissive } = .next t ∧ t.wait = true) :=
  ⟨by decide, ⟨_, rfl, rfl, rfl, rfl⟩, _, rfl, rfl⟩
theorem witness_ListedVariantsNeverRaise :
    Instr.cls ≠ .ret ∧ (∀ n, Instr.cls ≠ .call n) ∧ (∀ x y n, Instr.cls ≠ .drw x y n) ∧ (∀ x, Instr.cls ≠ .ldBVx x) ∧
    (∀ x, Instr.cls ≠ .stRegs x) ∧ (∀ x, Instr.cls ≠ .ldRegs x) := by simp
theorem witness_SysIsANoOperation : 0x123#12 ≠ 0x0E0#12 ∧ 0x123#12 ≠ 0x0EE#12 := by decide
theorem witness_RetPopsTheStack : ({ busy with sp := 1 }.sp.val ≠ 0 ∧ { busy with sp := 16 }.sp.val ≠ 0) ∧ busy.sp.val = 0 := by decide
theorem witness_CallPushesTheReturnAddress :
    (busy.sp.val < 16 ∧ { busy with sp := 15 }.sp.val < 16) ∧ { busy with sp := 16 }.sp.val = 16 := by decide
theorem witness_NestedCallsReturnToTheFirst :
    (List.replicate 16 0x300#12 ≠ [] ∧ busy.sp.val + (List.replicate 16 0x300#12).length ≤ 16) ∧
    ([0xFFF#12] ≠ [] ∧ { busy with sp := 15 }.sp.val + [0xFFF#12].length ≤ 16) := by decide
theorem witness_LoadsAndAddImmediateWriteOneRegister : 0x2#4 ≠ 0x1#4 ∧ 0xF#4 ≠ 0x1#4 := by decide
theorem witness_SubtractionsSetNotBorrow : (0x1#4 ≠ vf ∧ 0xE#4 ≠ vf) ∧ (0x2#4 ≠ 0x1#4 ∧ 0x2#4 ≠ vf) := by decide
theorem witness_AddRegistersSetsCarry : (0x1#4 ≠ vf ∧ 0xE#4 ≠ vf) ∧ (0x2#4 ≠ 0x1#4 ∧ 0x2#4 ≠ vf) := by decide
theorem witness_ShiftsMoveByOne :
    0x07#8 = (if busy.cfg.shiftSrc = .vx then busy.getReg 0x1#4 else busy.getReg 0x2#4) ∧
    0x00#8 = (if ShiftSource.vy = .vx then busy.getReg 0x1#4 else busy.getReg 0x2#4) := by decide
theorem witness_RndMasksAFreshDraw : (0x0F#8).getLsbD 4 = false ∧ (0x00#8).getLsbD 0 = false := by decide
theorem witness_OnlyRndTakesADraw :
    (∃ t, step (busy.withFetchWord 16 0xC30F) = .next t ∧ t.draws = 1) ∧ ∃ t, step stopped = .next t ∧ t.draws = 0 :=
  ⟨⟨_, rfl, rfl⟩, ⟨_, rfl, rfl⟩⟩
theorem witness_IndexInstructionsWriteI : busy.cfg.wf = true ∧ { Config.default with fontBase := 0x1B0 }.wf = true := by decide
theorem witness_BcdStoresThreeDigits :
    MemoryCanonical busy ∧ { busy with i := 0xFFD }.i.toNat + 2 ≤ 0xFFF ∧ 0xFFF < { busy with i := 0xFFE }.i.toNat + 2 := by
  refine ⟨rfl, ?_, ?_⟩ <;> decide
theorem witness_RegisterDumpStoresTheBlock :
    MemoryCanonical busy ∧ { busy with i := 0xFF0 }.i.toNat + (0xF#4).toNat ≤ 0xFFF ∧
    { busy with i := 0xFFF }.i.toNat + (0x0#4).toNat ≤ 0xFFF ∧ 0xFFF < { busy with i := 0xFFF }.i.toNat + (0x1#4).toNat ∧
    busy.cfg.memIncrI = false ∧ { Config.default with memIncrI := true }.memIncrI = true := by
  refine ⟨rfl, ?_, ?_, ?_, ?_, ?_⟩ <;> decide
theorem witness_RegisterLoadReadsTheBlock :
    { busy with i := 0xFF0 }.i.toNat + (0xF#4).toNat ≤ 0xFFF ∧ 0xFFF < { busy with i := 0xFF1 }.i.toNat + (0xF#4).toNat ∧
    (0x1#4).toNat ≤ (0x1#4).toNat ∧ (0x1#4).toNat < (0x2#4).toNat := by decide
theorem witness_StoreIsSeenByTheNextFetch :
    let s := { busy with i := 0x202 }.withFetchWord 16 0xF155
    MemoryCanonical s ∧ s.halted = false ∧ s.wait = false ∧ s.fetch = .ok 0xF155#16 ∧
    decode 0xF155#16 = .ok (.stRegs 0x1#4) ∧ 1 ≤ (0x1#4).toNat ∧ s.i = s.pc + 2#16 ∧ s.i.toNat + (0x1#4).toNat ≤ 0xFFF :=
  ⟨rfl, rfl, rfl, rfl, rfl, by decide, rfl, by decide⟩
theorem witness_DrawXorsTheSprite :
    ((0x0#4).toNat = 0 ∨ { busy with i := 0xFFF }.i.toNat + (0x0#4).toNat - 1 ≤ 0xFFF) ∧
    ((0xF#4).toNat = 0 ∨ { busy with i := 0xFF1 }.i.toNat + (0xF#4).toNat - 1 ≤ 0xFFF) ∧
    (1 ≤ (0xF#4).toNat ∧ 0xFFF < { busy with i := 0xFF2 }.i.toNat + (0xF#4).toNat - 1) := by decide
/-- D4 and D9: there are draws with a pixel that goes out, and draws with none. -/
theorem witness_DrawXorsTheSprite_flags :
    runs 0xD121 (fun s => { s.writeByte 0x300 0xF0 with i := 0x300, fb := s.fb.set 0 0b11000 })
      (fun t => !t.fb.pixel 3 0 && t.fb.pixel 4 0 && t.getReg vf == 1) = true ∧
    runs 0xD121 (fun s => { s.writeByte 0x300 0x0F with i := 0x300, fb := s.fb.set 0 1 })
      (fun t => t.fb.pixel 0 0 && t.getReg vf == 0) = true := by decide
theorem witness_DrawingTwiceRestoresTheDisplay :
    0x1#4 ≠ vf ∧ 0x2#4 ≠ vf ∧ ((0x5#4).toNat = 0 ∨ busy.i.toNat + (0x5#4).toNat - 1 ≤ 0xFFF) ∧
    (∀ a b, busy.fb.pixel a b = false) :=
  ⟨by decide, by decide, by decide, fun a b => by simp [busy, State.reset]⟩
theorem witness_KeyWaitStartsAndCompletes :
    busy.halted = false ∧ (busy.keys.getLsbD 4 = true ∧ ∀ j < 4, busy.keys.getLsbD j = false) ∧ State.reset.keys = 0x0000#16 := by
  decide
theorem witness_TimerInstructionsMoveTheTimers : 0x0#4 ≠ 0xF#4 := by decide
theorem witness_TimerTickCountsDown :
    stopped.halted = true ∧
    ({ Config.default with keyWaitHaltsTimers := true }.keyWaitHaltsTimers = true ∧ waiting.wait = true) ∧
    (busy.halted = false ∧ (busy.cfg.keyWaitHaltsTimers = false ∨ busy.wait = false)) ∧
    ({ busy with cfg := { Config.default with keyWaitHaltsTimers := true } }.halted = false ∧
      { busy with cfg := { Config.default with keyWaitHaltsTimers := true } }.wait = false) := by decide
theorem witness_TicksWithoutStepsCountDown :
    { busy with cfg := { Config.default with stepsPerTick := 0 } }.halted = false ∧
    { Config.default with stepsPerTick := 0 }.stepsPerTick = 0 ∧ (busy.cfg.keyWaitHaltsTimers = false ∨ busy.wait = false) := by
  decide
theorem witness_FrameOutAndSetKeysWriteTheirOwn : busy.halted = false ∧ stopped.halted = true := by decide
/-- A whole batch of one step, a batch cut short because the machine is halted, and both outcomes of a batch. -/
theorem witness_TickRunsItsPhasesInOrder :
    (runSteps 1 busy = .next { busy with pc := 0x202 } ∧ busy.halted = false ∧ step busy = .next { busy with pc := 0x202 } ∧
      { busy with pc := 0x202 }.halted = false) ∧
    (runSteps stopped.cfg.stepsPerTick stopped = .next stopped ∧ stopped.halted = true ∧ 0 ≤ stopped.cfg.stepsPerTick) :=
  ⟨⟨rfl, rfl, rfl, rfl⟩, rfl, rfl, by decide⟩
theorem witness_ResetBuildsTheWholeState :
    busy.cfg.wf = true ∧ (List.replicate 3584 0x12#8).length ≤ 3584 ∧ 3585 ≤ (List.replicate 3585 0x12#8).length ∧
    0x09F < busy.cfg.fontBase + 80 ∧ 0x1FF < 0x200 := by
  refine ⟨by decide, ?_, ?_, by decide, by decide⟩ <;> rw [List.length_replicate]
theorem witness_OnlyResetLeavesTheHaltedState : stopped.halted = true ∧ ∀ rom, Event.step ≠ .reset rom := by
  refine ⟨by decide, ?_⟩; simp
theorem witness_FrameOfControlFlow :
    errorOf (.call 0x300#12) busy = none ∧ errorOf (.call 0x300#12) { busy with sp := 15 } = none ∧
    errorOf .ret { busy with sp := 1 } = none ∧ (∃ t, exec (.call 0x300#12) busy = .next t) :=
  ⟨by decide, by decide, by decide, _, rfl⟩
theorem witness_FrameOfAlu : errorOf (.addReg 0xF#4 0x1#4) busy = none ∧ ∃ t, exec (.addReg 0xF#4 0x1#4) busy = .next t :=
  ⟨by decide, _, rfl⟩
theorem witness_FrameOfIndexAndMemory :
    errorOf (.ldBVx 0x1#4) { busy with i := 0xFFD } = none ∧ errorOf (.stRegs 0xF#4) { busy with i := 0xFF0 } = none ∧
    errorOf (.ldRegs 0x0#4) { busy with i := 0xFFF } = none ∧ ∃ t, exec (.stRegs 0xF#4) busy = .next t :=
  ⟨by decide, by decide, by decide, _, rfl⟩
theorem witness_FrameOfDisplayKeysAndTimers :
    errorOf (.drw 0x1#4 0x1#4 0xF#4) { busy with i := 0xFF1 } = none ∧ errorOf (.drw 0x1#4 0x1#4 0x0#4) { busy with i := 0xFFF } = none ∧
    (∃ t, exec (.drw 0x1#4 0x1#4 0x1#4) busy = .next t) ∧ ∃ t, exec (.ldVxK 0x1#4) busy = .next t :=
  ⟨by decide, by decide, ⟨_, rfl⟩, _, rfl⟩
theorem witness_DefinedFlagIsZeroOrOne :
    ((∃ x y, Instr.sub 0x1#4 0x2#4 = .addReg x y ∨ Instr.sub 0x1#4 0x2#4 = .sub x y) ∧ errorOf (.sub 0x1#4 0x2#4) busy = none ∧
      ∃ t, exec (.sub 0x1#4 0x2#4) busy = .next t) ∧
    ({ Config.default with logicResetsVF := true }.logicResetsVF = true ∧
      errorOf (.xorReg 0xF#4 0x1#4) { busy with cfg := { Config.default with logicResetsVF := true } } = none ∧
      ∃ t, exec (.xorReg 0xF#4 0x1#4) { busy with cfg := { Config.default with logicResetsVF := true } } = .next t) :=
  ⟨⟨⟨_, _, .inr rfl⟩, by decide, _, rfl⟩, by decide, by decide, _, rfl⟩
theorem witness_StepLeavesKeysAndOutputs : ∃ t, step { busy with soundOut := true } = .next t := ⟨_, rfl⟩
theorem witness_ConfigurationNeverChanges :
    ∃ t, fireAll [.setKeys 0x0001, .step, .timerTick, .frameOut, .reset [0x12, 0x00]] busy = .next t := ⟨_, rfl⟩
theorem witness_NoStepReadsTheSoundTimer :
    ∃ t, step (busy.withFetchWord 16 0xF118) = .next t ∧ t.st = 0x07#8 := ⟨_, rfl, rfl⟩
/-- Two states that differ in the dead entry 1 and agree on the live entry 0, about to return through it. -/
theorem witness_DeadStackEntriesAreUnobservable :
    let s := { busy with sp := 1, stack := busy.stack.set 0 0x0ABC }.withFetchWord 16 0x00EE
    SameButDeadStack s { s with stack := s.stack.set 1 0x0777 } ∧ s ≠ { s with stack := s.stack.set 1 0x0777 } ∧
    ∃ t, step s = .next t ∧ t.pc = 0x0ABC#16 := ⟨⟨rfl, by decide⟩, by decide, _, rfl, rfl⟩
/-- The invariant holds in states other than reset: at a store to the last bytes, in a key wait, and with a full stack. -/
theorem witness_StepKeepsTheInvariant :
    (Inv ({ busy with i := 0xFFD }.withFetchWord 16 0xF133) ∧ ∃ t, step ({ busy with i := 0xFFD }.withFetchWord 16 0xF133) = .next t) ∧
    (Inv waiting ∧ ∃ t, step waiting = .next t) ∧
    (Inv ({ busy with sp := 15, pc := 0xFFE }.withFetchWord 16 0x2FFF) ∧
      ∃ t, step ({ busy with sp := 15, pc := 0xFFE }.withFetchWord 16 0x2FFF) = .next t ∧ t.stack[15] = 0x1000#16) := by
  refine ⟨⟨⟨rfl, rfl, ?_, ?_, fun _ => ?_⟩, _, rfl⟩, ⟨⟨rfl, rfl, ?_, fun _ => rfl, fun _ => ?_⟩, _, rfl⟩,
    ⟨⟨rfl, rfl, ?_, ?_, fun _ => ?_⟩, _, rfl, rfl⟩⟩
  all_goals first
    | (unfold IndexMasked; decide)
    | (intro h; exact absurd h (by decide))
    | decide
theorem witness_EveryEventKeepsTheInvariant :
    (Inv waiting ∧ (∃ t, fire (.reset [0x12, 0x00]) waiting = .next t) ∧ ∃ t, fire (.setKeys 0x0000) waiting = .next t) ∧
    (Inv stopped ∧ ∃ t, fire (.tick false 0x0001) stopped = .next t) := by
  refine ⟨⟨⟨rfl, rfl, ?_, fun _ => rfl, fun _ => ?_⟩, ⟨_, rfl⟩, _, rfl⟩, ⟨rfl, rfl, ?_, ?_, fun _ => ?_⟩, _, rfl⟩
  all_goals first
    | (unfold IndexMasked; decide)
    | (intro h; exact absurd h (by decide))
    | decide

end Sys2Proof.Tests
end

section
/-! PROOFS. What one instruction can do, said once (`ExecShape`, `exec_answers`); from it, that a step and every other event
keep the configuration (spec/00_scope.md R5) and the invariant (R9 with R23, R24, R31). -/

namespace Sys2Proof.Machine

open Sys2Proof.Safety

/-! ### Updates of data -/

/-- `t` is `s` after an update of data: what steers the machine (`pc`, the stack, the key wait, the configuration) is
unchanged, and memory stays canonical and `I` within 12 bits where they were. -/
structure DataUpdate (s t : State) : Prop where
  cfg : t.cfg = s.cfg
  pc : t.pc = s.pc
  sp : t.sp = s.sp
  stack : t.stack = s.stack
  wait : t.wait = s.wait
  memory : MemoryCanonical s → MemoryCanonical t
  index : IndexMasked s → IndexMasked t

/-- Registers, timers, the display and the draw count are data that neither memory nor `I` depends on. -/
theorem DataUpdate.of_eq {s t : State}
    (h : t = { s with v := t.v, dt := t.dt, st := t.st, fb := t.fb, draws := t.draws }) : DataUpdate s t := by
  rw [h]
  exact ⟨rfl, rfl, rfl, rfl, rfl, id, id⟩

theorem DataUpdate.refl (s : State) : DataUpdate s s := .of_eq rfl

theorem DataUpdate.setLogic (s : State) (x : Reg) (b : Byte) : DataUpdate s (s.setLogic x b) := by
  unfold State.setLogic
  split
  · exact .of_eq rfl
  · exact .of_eq rfl

theorem DataUpdate.setRegBlock (s : State) (j : Nat) (bs : List Byte) : DataUpdate s (s.setRegBlock j bs) where
  cfg := State.setRegBlock_cfg ..
  pc := State.setRegBlock_pc ..
  sp := State.setRegBlock_sp ..
  stack := State.setRegBlock_stack ..
  wait := State.setRegBlock_wait ..
  memory h := by simpa [MemoryCanonical] using h
  index h := by simpa [IndexMasked] using h

/-- Every write of `I` is masked (spec/10_state.md R23). -/
theorem State.setI_masked (s : State) (a : Word) : IndexMasked (s.setI a) := by
  rw [IndexMasked, State.setI_i, BitVec.toNat_and]
  exact Nat.and_le_right

theorem DataUpdate.setI {s t : State} (h : DataUpdate s t) (a : Word) : DataUpdate s (t.setI a) where
  cfg := h.cfg
  pc := h.pc
  sp := h.sp
  stack := h.stack
  wait := h.wait
  memory := h.memory
  index _ := t.setI_masked a

theorem DataUpdate.bumpIndex {s t : State} (h : DataUpdate s t) (n : Nat) : DataUpdate s (t.bumpIndex n) := by
  unfold State.bumpIndex
  split
  · exact h.setI _
  · exact h

/-- A store that its range check lets through. -/
theorem DataUpdate.of_memWrite {s t : State} {a : Nat} {bs : List Byte} (h : s.memWrite a bs = .ok t) : DataUpdate s t := by
  obtain ⟨rfl, hin⟩ := State.memWrite_ok h
  constructor
  case memory =>
    intro hm
    rw [MemoryCanonical, State.writeBytes_cfg]
    obtain rfl | ha := hin
    · exact hm
    · exact State.wf_writeBytes hm a bs ha
  case index => exact fun hi => by simpa [IndexMasked] using hi
  all_goals simp

/-! ### What one instruction can do -/

/-- Everything an instruction can do to the state (spec/41_control_flow.md to spec/45_input_timers.md): update data and move
on, skip, jump, call, return, start a key wait, or take an error. -/
inductive ExecShape : Instr → State → State → Prop
  | advance {i : Instr} {s u : State} (hu : DataUpdate s u) : ExecShape i s u.advance
  | skip {i : Instr} {s : State} : ExecShape i s s.skip
  | jump {i : Instr} {s : State} (a : Word) (ha : a.toNat ≤ 0x10FE) : ExecShape i s (s.jump a)
  | call {i : Instr} {s u : State} (nnn : Addr12) (hu : s.pushReturn (s.pc + 2#16) = some u) :
      ExecShape i s (u.jump (addrOperand nnn))
  | ret {i : Instr} {s t : State} (ht : s.popReturn = some t) : ExecShape i s t
  | startWait {s : State} (x : Reg) : ExecShape (.ldVxK x) s { s with wait := true, waitX := x }
  | error {i : Instr} {s : State} (k : ErrorKind) (a w : Word) : ExecShape i s (s.takeError k a w)

theorem addrOperand_le (nnn : Addr12) : (addrOperand nnn).toNat ≤ 0xFFF := by
  rw [addrOperand, BitVec.toNat_setWidth]
  have := nnn.isLt
  omega

/-- The largest target of `JP V0` is 0xFFF + 0xFF (spec/41_control_flow.md R148). -/
theorem State.offsetTarget_le (s : State) (nnn : Addr12) : (s.offsetTarget nnn).toNat ≤ 0x10FE := by
  rw [State.offsetTarget, BitVec.toNat_ofNat]
  have := nnn.isLt
  have := (s.getReg 0x0#4).isLt
  omega

theorem skipIf_answers (i : Instr) (s : State) (c : Bool) : ∃ t, skipIf c s = .next t ∧ ExecShape i s t := by
  cases c
  · exact ⟨_, rfl, .advance (.refl s)⟩
  · exact ⟨_, rfl, .skip⟩

theorem execRet_answers (s : State) : ∃ t, execRet s = .next t ∧ ExecShape .ret s t := by
  unfold execRet
  split
  next ht => exact ⟨_, rfl, .ret ht⟩
  next => exact ⟨_, rfl, .error ..⟩

theorem execCall_answers (nnn : Addr12) (s : State) : ∃ t, execCall nnn s = .next t ∧ ExecShape (.call nnn) s t := by
  unfold execCall
  split
  next hu => exact ⟨_, rfl, .call nnn hu⟩
  next => exact ⟨_, rfl, .error ..⟩

theorem execDrw_answers (x y : Reg) (n : BitVec 4) (s : State) :
    ∃ t, execDrw x y n s = .next t ∧ ExecShape (.drw x y n) s t := by
  unfold execDrw
  split
  · exact ⟨_, rfl, .advance (.of_eq rfl)⟩
  · exact ⟨_, rfl, .error ..⟩

theorem execLdBVx_answers (x : Reg) (s : State) : ∃ t, execLdBVx x s = .next t ∧ ExecShape (.ldBVx x) s t := by
  unfold execLdBVx
  split
  next ht => exact ⟨_, rfl, .advance (.of_memWrite ht)⟩
  next => exact ⟨_, rfl, .error ..⟩

theorem execStRegs_answers (x : Reg) (s : State) : ∃ t, execStRegs x s = .next t ∧ ExecShape (.stRegs x) s t := by
  unfold execStRegs
  split
  next ht => exact ⟨_, rfl, .advance ((DataUpdate.of_memWrite ht).bumpIndex _)⟩
  next => exact ⟨_, rfl, .error ..⟩

theorem execLdRegs_answers (x : Reg) (s : State) : ∃ t, execLdRegs x s = .next t ∧ ExecShape (.ldRegs x) s t := by
  unfold execLdRegs
  split
  · exact ⟨_, rfl, .advance ((DataUpdate.setRegBlock s 0 _).bumpIndex _)⟩
  · exact ⟨_, rfl, .error ..⟩

/-- Every instruction answers a next state, of one of the shapes of `ExecShape`. -/
theorem exec_answers (s : State) : ∀ i : Instr, ∃ t, exec i s = .next t ∧ ExecShape i s t
  | .sys _ => ⟨_, rfl, .advance (.refl s)⟩
  | .cls => ⟨_, rfl, .advance (.of_eq rfl)⟩
  | .ret => execRet_answers s
  | .jp nnn => ⟨_, rfl, .jump _ ((addrOperand_le nnn).trans (by decide))⟩
  | .call nnn => execCall_answers nnn s
  | .seImm _ _ | .sneImm _ _ | .seReg _ _ | .sneReg _ _ | .skp _ | .sknp _ => skipIf_answers _ s _
  | .ldImm _ _ | .addImm _ _ | .ldReg _ _ | .ldVxDt _ | .rnd _ _ => ⟨_, rfl, .advance (.of_eq rfl)⟩
  | .orReg _ _ | .andReg _ _ | .xorReg _ _ => ⟨_, rfl, .advance (.setLogic s _ _)⟩
  | .addReg _ _ | .sub _ _ | .shr _ _ | .subn _ _ | .shl _ _ => ⟨_, rfl, .advance (.of_eq rfl)⟩
  | .ldI _ | .addIVx _ | .ldFVx _ => ⟨_, rfl, .advance ((DataUpdate.refl s).setI _)⟩
  | .jpV0 nnn => ⟨_, rfl, .jump _ (s.offsetTarget_le nnn)⟩
  | .drw x y n => execDrw_answers x y n s
  | .ldVxK x => ⟨_, rfl, .startWait x⟩
  | .ldDtVx _ | .ldStVx _ => ⟨_, rfl, .advance (.of_eq rfl)⟩
  | .ldBVx x => execLdBVx_answers x s
  | .stRegs x => execStRegs_answers x s
  | .ldRegs x => execLdRegs_answers x s

theorem exec_shape {i : Instr} {s t : State} (h : exec i s = .next t) : ExecShape i s t := by
  obtain ⟨u, hu, hs⟩ := exec_answers s i
  obtain rfl := Host.Outcome.next.inj (hu.symm.trans h)
  exact hs

/-! ### What each shape keeps -/

theorem ExecShape.cfg_eq {i : Instr} {s t : State} (h : ExecShape i s t) : t.cfg = s.cfg := by
  cases h with
  | advance hu => exact hu.cfg
  | skip | jump | startWait => rfl
  | call nnn hu => obtain ⟨_, rfl⟩ := State.pushReturn_some hu; rfl
  | ret ht => obtain ⟨_, rfl⟩ := State.popReturn_some ht; rfl
  | error k a w => exact State.takeError_cfg s k a w

theorem ExecShape.memoryCanonical {i : Instr} {s t : State} (h : ExecShape i s t) (hm : MemoryCanonical s) :
    MemoryCanonical t := by
  cases h with
  | advance hu => exact hu.memory hm
  | skip | jump | startWait => exact hm
  | call nnn hu => obtain ⟨_, rfl⟩ := State.pushReturn_some hu; exact hm
  | ret ht => obtain ⟨_, rfl⟩ := State.popReturn_some ht; exact hm
  | error k a w => simpa [MemoryCanonical] using hm

theorem ExecShape.indexMasked {i : Instr} {s t : State} (h : ExecShape i s t) (hi : IndexMasked s) : IndexMasked t := by
  cases h with
  | advance hu => exact hu.index hi
  | skip | jump | startWait => exact hi
  | call nnn hu => obtain ⟨_, rfl⟩ := State.pushReturn_some hu; exact hi
  | ret ht => obtain ⟨_, rfl⟩ := State.popReturn_some ht; exact hi
  | error k a w => simpa [IndexMasked] using hi

/-- Only `LD Vx, K` makes the machine wait, and it moves nothing else. -/
theorem ExecShape.wait_cases {i : Instr} {s t : State} (h : ExecShape i s t) :
    t.wait = s.wait ∨ ∃ x, i = .ldVxK x ∧ t = { s with wait := true, waitX := x } := by
  cases h with
  | advance hu => exact .inl hu.wait
  | skip | jump => exact .inl rfl
  | call nnn hu => obtain ⟨_, rfl⟩ := State.pushReturn_some hu; exact .inl rfl
  | ret ht => obtain ⟨_, rfl⟩ := State.popReturn_some ht; exact .inl rfl
  | startWait x => exact .inr ⟨x, rfl, rfl⟩
  | error k a w => exact .inl (State.takeError_wait s k a w)

/-! ### The bounds of `pc` and of the return addresses (R24) -/

/-- The bounds carry over to a state with the same policy and stack whose `pc` is within its own. -/
theorem pcBounded_of_stack_eq {s t : State} (hb : PcBounded s) (hcfg : t.cfg = s.cfg) (hsp : t.sp = s.sp)
    (hstack : t.stack = s.stack) (hpc : t.pc.toNat ≤ 0x10FE) : PcBounded t := by
  intro hp
  rw [hcfg] at hp
  refine ⟨hpc, ?_⟩
  rw [hsp, hstack]
  exact (hb hp).2

/-- Moving on from an address that an instruction was fetched at. -/
theorem toNat_add_le_of_fetched {a : Word} (ha : a.toNat ≤ 0xFFE) (k : Word) : (a + k).toNat ≤ 0xFFE + k.toNat := by
  rw [BitVec.toNat_add]
  omega

theorem pcBounded_pushReturn {s u : State} {a : Word} (hb : PcBounded s) (ha : a.toNat ≤ 0x1000)
    (h : s.pushReturn a = some u) : PcBounded u := by
  obtain ⟨hs, rfl⟩ := State.pushReturn_some h
  intro hp
  obtain ⟨hpc, hlive⟩ := hb hp
  refine ⟨hpc, fun j hj => ?_⟩
  rw [Vector.getElem_set]
  split
  next => exact ha
  next hne => exact hlive j (by simp only at hj; omega)

theorem pcBounded_popReturn {s t : State} (hb : PcBounded s) (h : s.popReturn = some t) : PcBounded t := by
  obtain ⟨hs, rfl⟩ := State.popReturn_some h
  intro hp
  obtain ⟨_, hlive⟩ := hb hp
  have htop := hlive ⟨s.sp.val - 1, by omega⟩ (by simp only; omega)
  exact ⟨htop.trans (by decide), fun j hj => hlive j (by simp only at hj; omega)⟩

/-- Under `halt`, where the bounds are claimed, an error leaves `pc` (spec/40_execution_cycle.md R126). -/
theorem pcBounded_takeError {s : State} (hb : PcBounded s) (k : ErrorKind) (a w : Word) :
    PcBounded (s.takeError k a w) := by
  intro hp
  rw [State.takeError_cfg] at hp
  rw [State.takeError_pc, if_pos hp, State.takeError_sp, State.takeError_stack]
  exact hb hp

/-- An instruction that was fetched stands at most at 0xFFE, so moving on or skipping stays within the bounds. -/
theorem ExecShape.pcBounded {i : Instr} {s t : State} (h : ExecShape i s t) (hpc : s.pc.toNat ≤ 0xFFE)
    (hb : PcBounded s) : PcBounded t := by
  have hnext : (s.pc + 2#16).toNat ≤ 0x1000 := toNat_add_le_of_fetched hpc _
  have hskip : (s.pc + 4#16).toNat ≤ 0x1002 := toNat_add_le_of_fetched hpc _
  cases h with
  | advance hu =>
    refine pcBounded_of_stack_eq hb hu.cfg hu.sp hu.stack ?_
    rw [State.advance_pc, hu.pc]
    omega
  | skip => exact pcBounded_of_stack_eq hb rfl rfl rfl (hskip.trans (by decide))
  | jump a ha => exact pcBounded_of_stack_eq hb rfl rfl rfl ha
  | call nnn hu =>
    exact pcBounded_of_stack_eq (pcBounded_pushReturn hb hnext hu) rfl rfl rfl ((addrOperand_le nnn).trans (by decide))
  | ret ht => exact pcBounded_popReturn hb ht
  | startWait => exact hb
  | error k a w => exact pcBounded_takeError hb k a w

/-! ### A step keeps the configuration and the invariant -/

theorem State.pc_le_of_fetch_ok {s : State} {w : Word} (h : s.fetch = .ok w) : s.pc.toNat ≤ 0xFFE := by
  rw [State.fetch_eq] at h
  split at h
  · assumption
  · cases h

theorem decodeClass0_ne_ldVxK (w : Word) (x : Reg) : decodeClass0 w ≠ .ldVxK x := by
  unfold decodeClass0
  split
  · nofun
  · split <;> nofun

theorem decodeClass8_ne_ldVxK (w : Word) (x : Reg) : decodeClass8 w ≠ .ok (.ldVxK x) := by
  unfold decodeClass8
  split <;> nofun

theorem decodeClassE_ne_ldVxK (w : Word) (x : Reg) : decodeClassE w ≠ .ok (.ldVxK x) := by
  unfold decodeClassE
  split <;> nofun

theorem decodeClassF_ldVxK {w : Word} {x : Reg} (h : decodeClassF w = .ok (.ldVxK x)) :
    nnField w = 0x0A#8 ∧ xField w = x := by
  unfold decodeClassF at h
  split at h <;> simp_all

/-- The word that decodes to `LD Vx, K` is its encoding (spec/30_encoding.md R96, R97): no class but F answers it. -/
theorem eq_encode_of_decode_ldVxK {w : Word} {x : Reg} (h : decode w = .ok (.ldVxK x)) : w = encode (.ldVxK x) := by
  obtain ⟨hop, hF⟩ : opField w = 0xF#4 ∧ decodeClassF w = .ok (.ldVxK x) := by
    unfold decode at h
    split at h
    case h_16 =>
      refine ⟨?_, h⟩
      generalize opField w = o at *
      revert o
      decide
    case h_1 => exact absurd (Except.ok.inj h) (decodeClass0_ne_ldVxK w x)
    case h_9 => exact absurd h (decodeClass8_ne_ldVxK w x)
    case h_15 => exact absurd h (decodeClassE_ne_ldVxK w x)
    case h_6 | h_10 => split at h <;> cases h
    all_goals cases h
  obtain ⟨hnn, hx⟩ := decodeClassF_ldVxK hF
  rw [encode, ← word_of_reg_byte w, hop, hx, hnn]

theorem takeError_keeps_inv {s : State} (hs : Inv s) (hw : s.wait = false) (k : ErrorKind) (a w : Word) :
    Inv (s.takeError k a w) where
  config := by simpa using hs.config
  memory := by simpa [MemoryCanonical] using hs.memory
  index := by simpa [IndexMasked] using hs.index
  waiting := by simp [WaitsAtKeyWait, hw]
  bounded := pcBounded_takeError hs.bounded k a w

/-- The poll of a wait that is pending at its `LD Vx, K`, which was fetched and so stands at most at 0xFFE. -/
theorem keyWaitPoll_keeps_inv {s : State} (hs : Inv s) (hw : s.wait = true) : Inv s.keyWaitPoll := by
  obtain ⟨_, heq⟩ | ⟨k, _, heq⟩ := s.keyWaitPoll_cases
  · rwa [heq]
  · have hpc := State.pc_le_of_fetch_ok (hs.waiting hw)
    have hnext : (s.pc + 2#16).toNat ≤ 0x1000 := toNat_add_le_of_fetched hpc _
    rw [heq]
    exact ⟨hs.config, hs.memory, hs.index, nofun,
      pcBounded_of_stack_eq hs.bounded rfl rfl rfl (hnext.trans (by decide))⟩

/-- A decoded instruction executed where it was fetched. -/
theorem exec_keeps_inv {i : Instr} {s t : State} {w : Word} (hs : Inv s) (hwait : s.wait = false) (hf : s.fetch = .ok w)
    (hd : decode w = .ok i) (h : exec i s = .next t) : Inv t where
  config := (exec_shape h).cfg_eq ▸ hs.config
  memory := (exec_shape h).memoryCanonical hs.memory
  index := (exec_shape h).indexMasked hs.index
  waiting := by
    obtain heq | ⟨x, rfl, rfl⟩ := (exec_shape h).wait_cases
    · simp [WaitsAtKeyWait, heq, hwait]
    · exact fun _ => hf.trans (congrArg _ (eq_encode_of_decode_ldVxK hd))
  bounded := (exec_shape h).pcBounded (State.pc_le_of_fetch_ok hf) hs.bounded

/-- The four ways a step reaches its next state: halted, by the poll, by an error, or by executing what it fetched. -/
theorem step_next {s t : State} (h : step s = .next t) :
    t = s ∨ (s.wait = true ∧ t = s.keyWaitPoll) ∨ (s.wait = false ∧ ∃ k a w, t = s.takeError k a w) ∨
    (s.wait = false ∧ ∃ w i, s.fetch = .ok w ∧ decode w = .ok i ∧ exec i s = .next t) := by
  obtain ⟨_, heq⟩ | ⟨_, hw, heq⟩ | ⟨_, hw, a, _, heq⟩ | ⟨_, hw, w, e, _, _, heq⟩ | ⟨_, hw, w, i, hf, hd, heq⟩ :=
    step_cases s
  all_goals have ht := h.symm.trans heq
  · exact .inl (Host.Outcome.next.inj ht)
  · exact .inr (.inl ⟨hw, Host.Outcome.next.inj ht⟩)
  · exact .inr (.inr (.inl ⟨hw, _, _, _, Host.Outcome.next.inj ht⟩))
  · exact .inr (.inr (.inl ⟨hw, _, _, _, Host.Outcome.next.inj ht⟩))
  · exact .inr (.inr (.inr ⟨hw, w, i, hf, hd, ht.symm⟩))

theorem step_keeps_inv {s t : State} (hs : Inv s) (h : step s = .next t) : Inv t := by
  obtain rfl | ⟨hw, rfl⟩ | ⟨hw, k, a, w, rfl⟩ | ⟨hw, w, i, hf, hd, hx⟩ := step_next h
  · exact hs
  · exact keyWaitPoll_keeps_inv hs hw
  · exact takeError_keeps_inv hs hw k a w
  · exact exec_keeps_inv hs hw hf hd hx

theorem State.keyWaitPoll_cfg (s : State) : s.keyWaitPoll.cfg = s.cfg := by
  obtain ⟨_, heq⟩ | ⟨k, _, heq⟩ := s.keyWaitPoll_cases
  · rw [heq]
  · rw [heq]
    rfl

theorem step_cfg {s t : State} (h : step s = .next t) : t.cfg = s.cfg := by
  obtain rfl | ⟨_, rfl⟩ | ⟨_, k, a, w, rfl⟩ | ⟨_, w, i, _, _, hx⟩ := step_next h
  · rfl
  · exact s.keyWaitPoll_cfg
  · exact State.takeError_cfg s k a w
  · exact (exec_shape hx).cfg_eq

/-! ### The other events -/

/-- `t` is `s` but for the timers, the outputs and the keys, which the events between the steps write. -/
def SameButDevices (s t : State) : Prop :=
  t = { s with dt := t.dt, st := t.st, keys := t.keys, frameOut := t.frameOut, soundOut := t.soundOut }

theorem setKeys_sameButDevices (k : Word) (s : State) : SameButDevices s (setKeys k s) := by
  unfold SameButDevices setKeys
  split <;> rfl

theorem timerTick_sameButDevices (s : State) : SameButDevices s (timerTick s) := by
  unfold SameButDevices timerTick
  repeat' split
  all_goals rfl

theorem frameOut_sameButDevices (s : State) : SameButDevices s (frameOut s) := by
  unfold SameButDevices frameOut
  split <;> rfl

theorem finishTick_sameButDevices (k : Word) (s : State) : SameButDevices s (finishTick k s) := finishTick_eq k s

theorem SameButDevices.cfg_eq {s t : State} (h : SameButDevices s t) : t.cfg = s.cfg := by
  rw [h]

theorem SameButDevices.inv {s t : State} (h : SameButDevices s t) (hs : Inv s) : Inv t := by
  rw [h]
  exact ⟨hs.config, hs.memory, hs.index, hs.waiting, hs.bounded⟩

/-- Everything `Reset` can do (spec/70_reset_and_hazards.md R250 to R252). -/
theorem resetRom_next {rom : List Byte} {s t : State} (h : resetRom rom s = .next t) :
    rom.length ≤ romMax ∧ t = State.writeBytes { State.reset with cfg := s.cfg, draws := s.draws } romBase rom := by
  unfold resetRom at h
  split at h
  · exact ⟨‹_›, (Host.Outcome.next.inj h).symm⟩
  · cases h

theorem resetRom_cfg {rom : List Byte} {s t : State} (h : resetRom rom s = .next t) : t.cfg = s.cfg := by
  obtain ⟨_, rfl⟩ := resetRom_next h
  exact State.writeBytes_cfg ..

/-- A ROM of at most 3584 bytes from 0x200 ends inside memory. -/
theorem resetRom_keeps_inv {rom : List Byte} {s t : State} (hs : Inv s) (h : resetRom rom s = .next t) : Inv t := by
  obtain ⟨hlen, rfl⟩ := resetRom_next h
  have hend : romBase + rom.length ≤ 0x1000 := Nat.add_le_add_left hlen romBase
  constructor
  case config => simpa using hs.config
  case memory =>
    rw [MemoryCanonical, State.writeBytes_cfg]
    exact State.wf_writeBytes rfl romBase rom hend
  case index => simp [IndexMasked, State.reset]
  case waiting => simp [WaitsAtKeyWait, State.reset]
  case bounded => simp [PcBounded, State.reset]

/-- Everything a tick can do (spec/60_exceptions.md R226): nothing at `STOP`; its batch of steps alone where that halts the
machine; or the batch and then the other phases. -/
theorem tick_next {stop : Bool} {k : Word} {s : State} {r : TickEnd × State} (h : tick stop k s = .next r) :
    r.2 = s ∨ ∃ u, runSteps s.cfg.stepsPerTick s = .next u ∧ (r.2 = u ∨ r.2 = finishTick k u) := by
  unfold tick at h
  split at h
  · cases h
    exact .inl rfl
  · split at h
    next u hu =>
      refine .inr ⟨u, hu, ?_⟩
      split at h
      · cases h
        exact .inl rfl
      · cases h
        exact .inr rfl
    · cases h
    · cases h

theorem fire_tick_next {stop : Bool} {k : Word} {s t : State} (h : fire (.tick stop k) s = .next t) :
    ∃ e, tick stop k s = .next (e, t) := by
  simp only [fire] at h
  split at h
  next e u hu => exact ⟨e, hu.trans (by rw [Host.Outcome.next.inj h])⟩
  · cases h
  · cases h

/-- A property that steps, resets and changes of devices keep is kept by every event, a whole tick among them. -/
theorem fire_keeps {P : State → Prop} (hreset : ∀ rom s t, P s → resetRom rom s = .next t → P t)
    (hstep : ∀ s t, P s → step s = .next t → P t) (hdevices : ∀ s t, P s → SameButDevices s t → P t)
    (e : Event) {s t : State} (hs : P s) (h : fire e s = .next t) : P t := by
  cases e with
  | reset rom => exact hreset rom s t hs h
  | setKeys k => exact Host.Outcome.next.inj h ▸ hdevices _ _ hs (setKeys_sameButDevices k s)
  | step => exact hstep s t hs h
  | timerTick => exact Host.Outcome.next.inj h ▸ hdevices _ _ hs (timerTick_sameButDevices s)
  | frameOut => exact Host.Outcome.next.inj h ▸ hdevices _ _ hs (frameOut_sameButDevices s)
  | tick stop keysIn =>
    obtain ⟨_, htick⟩ := fire_tick_next h
    obtain rfl | ⟨u, hu, rfl | rfl⟩ := tick_next htick
    · exact hs
    · exact runSteps_keeps hstep _ hs hu
    · exact hdevices _ _ (runSteps_keeps hstep _ hs hu) (finishTick_sameButDevices keysIn u)

/-- Settles O58: steps, resets and changes of devices keep the invariant. -/
theorem everyEventKeepsTheInvariant : Obligations.EveryEventKeepsTheInvariant := fun e _ _ hs h =>
  fire_keeps (P := Inv) (fun _ _ _ => resetRom_keeps_inv) (fun _ _ => step_keeps_inv) (fun _ _ hs hd => hd.inv hs) e hs h

theorem fire_cfg (e : Event) {s t : State} (h : fire e s = .next t) : t.cfg = s.cfg :=
  fire_keeps (P := fun u => u.cfg = s.cfg) (fun _ _ _ hc hu => (resetRom_cfg hu).trans hc)
    (fun _ _ hc hu => (step_cfg hu).trans hc) (fun _ _ hc hd => hd.cfg_eq.trans hc) e rfl h

/-- Settles O53, by the invariant `cfg = s.cfg` along the sequence of events. -/
theorem configurationNeverChanges : Obligations.ConfigurationNeverChanges := fun es s _ h =>
  fireAll_keeps (P := fun u => u.cfg = s.cfg) (fun e _ _ hc hu => (fire_cfg e hu).trans hc) es rfl h

end Sys2Proof.Machine
end

section
/-! PROOFS. The state after reset (spec/10_state.md R36, R37), and what halting shuts out (R32, R218, R232). -/

namespace Sys2Proof.Machine

open Sys2Proof.Safety

/-! ### The reset state -/

/-- Settles O57, by the step lemma that O58 rests on too. -/
theorem stepKeepsTheInvariant : Obligations.StepKeepsTheInvariant := fun _ _ => step_keeps_inv

/-- Settles O56: memory lists nothing, no wait is pending and no return address is live. -/
theorem resetHasTheInvariant : Obligations.ResetHasTheInvariant where
  config := rfl
  memory := rfl
  index := Nat.zero_le _
  waiting := nofun
  bounded _ := ⟨by decide, nofun⟩

/-- Outside the font an unwritten byte is 0 (spec/20_memory.md R61). -/
theorem resetByte_outside_font {c : Config} {a : Nat} (h : a < c.fontBase ∨ c.fontBase + 80 ≤ a) :
    resetByte c a = 0x00#8 :=
  dif_neg (by omega)

theorem State.getReg_reset : ∀ r, State.reset.getReg r = 0x00#8 := by decide

theorem State.stack_reset : ∀ j : Fin 16, State.reset.stack[j.val]'j.isLt = 0x0000#16 := by decide

/-- Settles O45: the font's table is read off, and every other address lies outside the font. -/
theorem resetStateHoldsTheValuesOfTheSpec : Obligations.ResetStateHoldsTheValuesOfTheSpec :=
  ⟨State.getReg_reset, rfl, rfl, rfl, State.stack_reset, rfl, rfl, rfl, fun _ ha => resetByte_outside_font ha,
    Framebuffer.pixel_blank, rfl, rfl, rfl, rfl, Framebuffer.pixel_blank, rfl⟩

/-! ### The events of a halted machine -/

theorem step_of_halted {s : State} (h : s.halted = true) : step s = .next s := if_pos h

theorem setKeys_of_halted {s : State} (k : Word) (h : s.halted = true) : setKeys k s = s := if_pos h

theorem timerTick_of_halted {s : State} (h : s.halted = true) : timerTick s = s := if_pos h

theorem frameOut_of_halted {s : State} (h : s.halted = true) : frameOut s = s := if_pos h

theorem runSteps_of_halted {s : State} (n : Nat) (h : s.halted = true) : runSteps n s = .next s := by
  cases n with
  | zero => rfl
  | succ n => exact if_pos h

/-- A tick of a halted machine ends at `STOP` or where its step batch would start. -/
theorem tick_of_halted {s : State} (stop : Bool) (k : Word) (h : s.halted = true) :
    tick stop k s = .next (if stop then .stopped else .halted, s) := by
  unfold tick
  cases stop with
  | true => rfl
  | false => simp [runSteps_of_halted _ h, h]

/-- Settles O46, by the events. -/
theorem onlyResetLeavesTheHaltedState : Obligations.OnlyResetLeavesTheHaltedState := by
  intro e s h hne
  cases e with
  | reset rom => exact absurd rfl (hne rom)
  | setKeys k => exact congrArg _ (setKeys_of_halted k h)
  | step => exact step_of_halted h
  | timerTick => exact congrArg _ (timerTick_of_halted h)
  | frameOut => exact congrArg _ (frameOut_of_halted h)
  | tick stop k => simp only [fire, tick_of_halted stop k h]

end Sys2Proof.Machine
end

section
/-! PROOFS. What each operation and each instruction leaves unchanged (spec/10_state.md R38). -/

namespace Sys2Proof.Safety

open Sys2Proof.Machine

/-! ### Frames of updates of the state -/

/-- `s` with the parts in `w` taken from `t`. The configuration is never taken: what memory reads as depends on it. -/
def overlay (w : List Part) (s t : State) : State where
  v := if .regs ∈ w then t.v else s.v
  i := if .index ∈ w then t.i else s.i
  pc := if .pc ∈ w then t.pc else s.pc
  sp := if .stack ∈ w then t.sp else s.sp
  stack := if .stack ∈ w then t.stack else s.stack
  dt := if .delayTimer ∈ w then t.dt else s.dt
  st := if .soundTimer ∈ w then t.st else s.st
  mem := if .memory ∈ w then t.mem else s.mem
  fb := if .display ∈ w then t.fb else s.fb
  keys := if .keys ∈ w then t.keys else s.keys
  wait := if .keyWait ∈ w then t.wait else s.wait
  waitX := if .keyWait ∈ w then t.waitX else s.waitX
  err := if .errorLatch ∈ w then t.err else s.err
  frameOut := if .outputs ∈ w then t.frameOut else s.frameOut
  soundOut := if .outputs ∈ w then t.soundOut else s.soundOut
  draws := if .draws ∈ w then t.draws else s.draws
  cfg := s.cfg

/-- Where `s` and `t` are written out as record updates, the hypothesis is `rfl`. -/
theorem OnlyChanges.of_overlay {w : List Part} {s t : State} (h : t = overlay w s t) : OnlyChanges w s t := by
  intro p hp
  rw [h]
  cases p <;> simp [Part.Same, overlay, State.getReg, State.readByte, hp]

theorem Part.Same.trans {p : Part} {s t u : State} (h : p.Same s t) (h' : p.Same t u) : p.Same s u := by
  cases p <;> simp_all [Part.Same]

theorem OnlyChanges.trans {w w' w'' : List Part} {s t u : State} (h : OnlyChanges w s t) (h' : OnlyChanges w' t u)
    (hw : w ⊆ w'') (hw' : w' ⊆ w'') : OnlyChanges w'' s u := fun p hp =>
  (h p fun hin => hp (hw hin)).trans (h' p fun hin => hp (hw' hin))

theorem OnlyChanges.onlyRegs {w : List Part} {s t : State} (h : OnlyChanges w s t) (hw : .regs ∉ w)
    (f : Reg → Bool) : OnlyRegs f s t := fun r _ => h .regs hw r

theorem OnlyChanges.onlyBytes {w : List Part} {s t : State} (h : OnlyChanges w s t) (hw : .memory ∉ w) (a n : Nat) :
    OnlyBytes a n s t := fun b _ => h .memory hw b

/-- A block transfer: after `p` is written, `I` moves under the quirk (R186) and `pc` moves on. -/
theorem OnlyChanges.bumpIndex_advance {p : Part} {s u : State} (h : OnlyChanges [p] s u) (hcfg : u.cfg = s.cfg)
    (n : Nat) : OnlyChanges (if s.cfg.memIncrI then [.pc, p, .index] else [.pc, p]) s (u.bumpIndex n).advance := by
  unfold State.bumpIndex
  rw [hcfg]
  split
  · exact h.trans (w' := [.pc, .index]) (.of_overlay rfl) (by simp) (by simp)
  · exact h.trans (w' := [.pc]) (.of_overlay rfl) (by simp) (by simp)

end Sys2Proof.Safety

namespace Sys2Proof.Machine

open Sys2Proof.Safety

/-! ### Registers written -/

theorem onlyRegs_setReg (s : State) (x : Reg) (b : Byte) : OnlyRegs (· == x) s (s.setReg x b) := fun r hr => by
  rw [State.getReg_setReg, if_neg (by simpa using hr)]

theorem onlyRegs_setWithFlag (s : State) (x : Reg) (b : Byte) (f : Bool) :
    OnlyRegs (fun r => r == x || r == vf) s (s.setWithFlag x b f) := fun r hr => by
  obtain ⟨hx, hf⟩ : r ≠ x ∧ r ≠ vf := by simpa using hr
  rw [State.getReg_setWithFlag, if_neg hf, if_neg hx]

theorem onlyRegs_setLogic (s : State) (x : Reg) (b : Byte) :
    OnlyRegs (fun r => r == x || (s.cfg.logicResetsVF && r == vf)) s (s.setLogic x b) := fun r hr => by
  obtain ⟨hx, hf⟩ : r ≠ x ∧ ¬ (s.cfg.logicResetsVF = true ∧ r = vf) := by simpa using hr
  rw [State.getReg_setLogic, if_neg hf, if_neg hx]

/-- Loading `V[0]..V[X]` leaves the registers above `X` (spec/43_index_memory.md R185). -/
theorem onlyRegs_setRegBlock (s : State) (x : Reg) {bs : List Byte} (hlen : bs.length = blockSize x) :
    OnlyRegs (fun r => decide (r.toNat ≤ x.toNat)) s (s.setRegBlock 0 bs) := fun r hr => by
  have hgt : x.toNat < r.toNat := by simpa using hr
  have hx := x.isLt
  rw [blockSize] at hlen
  rw [State.getReg_setRegBlock s 0 bs (by omega), if_neg (by omega)]

theorem State.setLogic_eq (s : State) (x : Reg) (b : Byte) :
    s.setLogic x b = { s with v := (s.setLogic x b).v } := by
  unfold State.setLogic
  split <;> rfl

theorem State.setRegBlock_eq (s : State) (j : Nat) (bs : List Byte) :
    s.setRegBlock j bs = { s with v := (s.setRegBlock j bs).v } := by
  induction bs generalizing s j with
  | nil => rfl
  | cons b bs ih => exact ih ..

theorem onlyChanges_setRegBlock (s : State) (j : Nat) (bs : List Byte) : OnlyChanges [.regs] s (s.setRegBlock j bs) :=
  .of_overlay (s.setRegBlock_eq j bs)

/-! ### Bytes written, in any memory, canonical or not -/

theorem Memory.lookup_eraseCell_of_ne {a k : Nat} (h : k ≠ a) (m : Memory) :
    Memory.lookup (Memory.eraseCell a m) k = Memory.lookup m k := by
  induction m with
  | nil => rfl
  | cons p m ih =>
    obtain ⟨a', b⟩ := p
    unfold Memory.eraseCell
    split
    · subst_vars
      rw [Memory.lookup, if_neg h]
    · rw [Memory.lookup, Memory.lookup, ih]

theorem State.readByte_writeByte_of_ne {a k : Nat} (h : k ≠ a) (s : State) (b : Byte) :
    (s.writeByte a b).readByte k = s.readByte k := by
  have hlook : Memory.lookup (Memory.write s.cfg s.mem a b) k = Memory.lookup s.mem k := by
    unfold Memory.write
    split
    · exact Memory.lookup_eraseCell_of_ne h s.mem
    · rw [Memory.lookup_insertCell, if_neg h]
  rw [State.readByte, State.writeByte_mem, State.writeByte_cfg, hlook, State.readByte]

theorem onlyBytes_writeBytes (s : State) (a : Nat) (bs : List Byte) :
    OnlyBytes a bs.length s (s.writeBytes a bs) := by
  induction bs generalizing s a with
  | nil => exact fun _ _ => rfl
  | cons b bs ih =>
    intro k hk
    rw [List.length_cons] at hk
    rw [State.writeBytes, ih _ _ k (by omega), State.readByte_writeByte_of_ne (by omega)]

theorem State.writeBytes_eq (s : State) (a : Nat) (bs : List Byte) :
    s.writeBytes a bs = { s with mem := (s.writeBytes a bs).mem } := by
  induction bs generalizing s a with
  | nil => rfl
  | cons b bs ih => exact ih ..

theorem onlyChanges_writeBytes (s : State) (a : Nat) (bs : List Byte) : OnlyChanges [.memory] s (s.writeBytes a bs) :=
  .of_overlay (s.writeBytes_eq a bs)

/-! ### Errors: where an instruction raises one, it raises that of the table (R212 to R216) -/

/-- The instruction raises the error the table names, with its own word. -/
def Raises (i : Instr) (s : State) : Prop :=
  ∃ k a, errorOf i s = some (k, a) ∧ exec i s = raise k a (encode i) s

theorem Raises.errorOf_ne_none {i : Instr} {s : State} : Raises i s → errorOf i s ≠ none := by
  rintro ⟨k, a, he, _⟩ hnone
  exact absurd (hnone.symm.trans he) nofun

/-- A range check under the condition of the table. -/
theorem completes_or_raises {c : Prop} [Decidable c] {i : Instr} {s t : State} {k : ErrorKind} {a : Word}
    (he : errorOf i s = if c then some (k, a) else none)
    (hx : exec i s = if c then raise k a (encode i) s else .next t) :
    (errorOf i s = none ∧ exec i s = .next t) ∨ Raises i s := by
  by_cases h : c
  · exact .inr ⟨k, a, he.trans (if_pos h), hx.trans (if_pos h)⟩
  · exact .inl ⟨he.trans (if_neg h), hx.trans (if_neg h)⟩

/-- `MemRead` under the condition R62 puts on it. -/
theorem State.memRead_eq (s : State) (a n : Nat) :
    s.memRead a n = if 1 ≤ n ∧ 0xFFF < a + n - 1 then .error (max a 0x1000)
      else .ok ((List.range n).map fun j => s.readByte (a + j)) := by
  cases h : s.memRead a n with
  | ok b =>
    obtain ⟨rfl, hin⟩ := State.memRead_ok h
    rw [if_neg (by omega)]
  | error e =>
    obtain ⟨rfl, hn, hout⟩ := State.memRead_error h
    rw [if_pos ⟨hn, hout⟩]

/-- `MemWrite` under the condition R63 puts on it. -/
theorem State.memWrite_eq (s : State) (a : Nat) (bs : List Byte) :
    s.memWrite a bs = if 1 ≤ bs.length ∧ 0xFFF < a + bs.length - 1 then .error (max a 0x1000)
      else .ok (s.writeBytes a bs) := by
  cases h : s.memWrite a bs with
  | ok t =>
    obtain ⟨rfl, hin⟩ := State.memWrite_ok h
    rw [if_neg]
    obtain rfl | hin := hin
    · simp
    · omega
  | error e =>
    obtain ⟨rfl, hn, hout⟩ := State.memWrite_error h
    rw [if_pos ⟨hn, hout⟩]

theorem State.length_regBlock (s : State) (n : Nat) : (s.regBlock n).length = n := by
  rw [State.regBlock, List.length_map, List.length_range]

/-- The display and the collision that a sprite of `n` bytes at `I` gives (spec/44_display.md R191). -/
def State.drawn (s : State) (x y : Reg) (n : Nat) : Framebuffer × Bool :=
  blit ((s.getReg x).toNat % 64) ((s.getReg y).toNat % 32) ((List.range n).map fun j => s.readByte (s.base + j))
    (s.fb, false)

theorem exec_drw_outcome (x y : Reg) (n : BitVec 4) (s : State) :
    (errorOf (.drw x y n) s = none ∧
      exec (.drw x y n) s =
        .next ({ s with fb := (s.drawn x y n.toNat).1 }.setFlag (s.drawn x y n.toNat).2).advance) ∨
    Raises (.drw x y n) s := by
  refine completes_or_raises rfl ?_
  rw [exec, execDrw, State.memRead_eq, State.base]
  by_cases h : 1 ≤ n.toNat ∧ 0xFFF < s.i.toNat + n.toNat - 1
  · rw [if_pos h, if_pos h]
    rfl
  · rw [if_neg h, if_neg h]
    rfl

theorem exec_ldBVx_outcome (x : Reg) (s : State) :
    (errorOf (.ldBVx x) s = none ∧
      exec (.ldBVx x) s = .next (s.writeBytes s.base (bcdDigits (s.getReg x))).advance) ∨
    Raises (.ldBVx x) s := by
  have hlen : (bcdDigits (s.getReg x)).length = 3 := rfl
  refine completes_or_raises rfl ?_
  rw [exec, execLdBVx, State.memWrite_eq, State.base, hlen]
  by_cases h : 0xFFF < s.i.toNat + 2 <;> simp [h, raiseBounds]

theorem exec_stRegs_outcome (x : Reg) (s : State) :
    (errorOf (.stRegs x) s = none ∧
      exec (.stRegs x) s =
        .next ((s.writeBytes s.base (s.regBlock (blockSize x))).bumpIndex (blockSize x)).advance) ∨
    Raises (.stRegs x) s := by
  refine completes_or_raises rfl ?_
  rw [exec, execStRegs, State.memWrite_eq, State.base, State.length_regBlock, blockSize]
  by_cases h : 0xFFF < s.i.toNat + x.toNat <;> simp [h, raiseBounds]

theorem exec_ldRegs_outcome (x : Reg) (s : State) :
    (errorOf (.ldRegs x) s = none ∧
      exec (.ldRegs x) s =
        .next ((s.setRegBlock 0 ((List.range (blockSize x)).map fun j => s.readByte (s.base + j))).bumpIndex
          (blockSize x)).advance) ∨
    Raises (.ldRegs x) s := by
  refine completes_or_raises rfl ?_
  rw [exec, execLdRegs, State.memRead_eq, State.base, blockSize]
  by_cases h : 0xFFF < s.i.toNat + x.toNat <;> simp [h, raiseBounds]

theorem exec_ret_of_ne_zero {s : State} (h : s.sp.val ≠ 0) :
    exec .ret s = .next { s with sp := ⟨s.sp.val - 1, by omega⟩, pc := s.stack[s.sp.val - 1]'(by omega) } := by
  simp [exec, execRet, State.popReturn, h]

theorem raises_ret {s : State} (h : s.sp.val = 0) : Raises .ret s :=
  ⟨_, _, if_pos h, by simp [exec, execRet, State.popReturn, h]⟩

theorem errorOf_ret_eq_none {s : State} : errorOf .ret s = none ↔ s.sp.val ≠ 0 := by simp [errorOf]

theorem exec_call_of_lt {s : State} (nnn : Addr12) (h : s.sp.val < 16) :
    exec (.call nnn) s = .next { s with
      stack := s.stack.set s.sp.val (s.pc + 2#16) h, sp := ⟨s.sp.val + 1, by omega⟩, pc := addrOperand nnn } := by
  simp [exec, execCall, State.pushReturn, h, State.jump]

theorem raises_call {s : State} (nnn : Addr12) (h : s.sp.val = 16) : Raises (.call nnn) s :=
  ⟨_, _, if_pos h, by simp [exec, execCall, State.pushReturn, h]⟩

theorem errorOf_call_eq_none {s : State} {nnn : Addr12} : errorOf (.call nnn) s = none ↔ s.sp.val < 16 := by
  have : s.sp.val = 16 ↔ ¬ s.sp.val < 16 := by omega
  simp [errorOf, this]

/-- In every state every variant has no error by the table, or raises the table's (R212 to R216). -/
theorem errorOf_none_or_raises (s : State) : ∀ i : Instr, errorOf i s = none ∨ Raises i s
  | .ret => (em (s.sp.val = 0)).symm.imp errorOf_ret_eq_none.mpr raises_ret
  | .call nnn => (Nat.lt_or_eq_of_le (Nat.le_of_lt_succ s.sp.isLt)).imp errorOf_call_eq_none.mpr (raises_call nnn)
  | .drw x y n => (exec_drw_outcome x y n s).imp_left (·.1)
  | .ldBVx x => (exec_ldBVx_outcome x s).imp_left (·.1)
  | .stRegs x => (exec_stRegs_outcome x s).imp_left (·.1)
  | .ldRegs x => (exec_ldRegs_outcome x s).imp_left (·.1)
  | .sys _ | .cls | .jp _ | .seImm _ _ | .sneImm _ _ | .seReg _ _ | .ldImm _ _ | .addImm _ _ | .ldReg _ _ | .orReg _ _
  | .andReg _ _ | .xorReg _ _ | .addReg _ _ | .sub _ _ | .shr _ _ | .subn _ _ | .shl _ _ | .sneReg _ _ | .ldI _ | .jpV0 _
  | .rnd _ _ | .skp _ | .sknp _ | .ldVxDt _ | .ldVxK _ | .ldDtVx _ | .ldStVx _ | .addIVx _ | .ldFVx _ => .inl rfl

/-! ### The frame of each instruction -/

/-- The proof of a frame from what the instruction answers where it raises no error. -/
theorem frameHolds_of_outcome {i : Instr} (h : ∀ s, (∃ t, exec i s = .next t ∧ Framed i s t) ∨ Raises i s) :
    FrameHolds i := by
  intro s t he hx
  obtain ⟨u, hu, hf⟩ | hr := h s
  · obtain rfl := Host.Outcome.next.inj (hu.symm.trans hx)
    exact hf
  · exact absurd he hr.errorOf_ne_none

/-- An update of parts other than registers and memory. -/
theorem framed_of_parts {i : Instr} {s t : State} (w : List Part) (hw : partsWritten s.cfg i = w)
    (h : OnlyChanges w s t) (hregs : .regs ∉ w := by decide) (hmem : .memory ∉ w := by decide) : Framed i s t :=
  ⟨hw ▸ h, h.onlyRegs hregs _, h.onlyBytes hmem _ _⟩

/-- An update of registers, and perhaps of other parts, but not of memory. -/
theorem framed_of_regs {i : Instr} {s t : State} {f : Reg → Bool} (w : List Part) (hw : partsWritten s.cfg i = w)
    (h : OnlyChanges w s t) (hf : regWritten s.cfg i = f) (hregs : OnlyRegs f s t) (hmem : .memory ∉ w := by decide) :
    Framed i s t :=
  ⟨hw ▸ h, hf ▸ hregs, h.onlyBytes hmem _ _⟩

theorem frameHolds_of_next {i : Instr} {f : State → State} (hx : ∀ s, exec i s = .next (f s))
    (hf : ∀ s, Framed i s (f s)) : FrameHolds i :=
  frameHolds_of_outcome fun s => .inl ⟨f s, hx s, hf s⟩

theorem frameHolds_jump {i : Instr} {a : State → Word} (hx : ∀ s, exec i s = .next (s.jump (a s)))
    (hw : ∀ c, partsWritten c i = [.pc]) : FrameHolds i :=
  frameHolds_of_next hx fun s => framed_of_parts _ (hw s.cfg) (.of_overlay rfl)

/-- A skip is a jump past one word or two (spec/41_control_flow.md R149). -/
theorem skipIf_eq (c : Bool) (s : State) : skipIf c s = .next (s.jump (if c then s.pc + 4#16 else s.pc + 2#16)) := by
  cases c <;> rfl

theorem frameHolds_setI {i : Instr} {a : State → Word} (hx : ∀ s, exec i s = .next (s.setI (a s)).advance)
    (hw : ∀ c, partsWritten c i = [.pc, .index]) : FrameHolds i :=
  frameHolds_of_next hx fun s => framed_of_parts _ (hw s.cfg) (.of_overlay rfl)

theorem frameHolds_setReg {i : Instr} {x : Reg} {b : State → Byte}
    (hx : ∀ s, exec i s = .next (s.setReg x (b s)).advance)
    (hw : ∀ c, partsWritten c i = [.pc, .regs]) (hf : ∀ c, regWritten c i = (· == x)) : FrameHolds i :=
  frameHolds_of_next hx fun s =>
    framed_of_regs _ (hw s.cfg) (.of_overlay rfl) (hf s.cfg) (onlyRegs_setReg s x (b s))

theorem frameHolds_setWithFlag {i : Instr} {x : Reg} {b : State → Byte} {f : State → Bool}
    (hx : ∀ s, exec i s = .next (s.setWithFlag x (b s) (f s)).advance) (hw : ∀ c, partsWritten c i = [.pc, .regs])
    (hf : ∀ c, regWritten c i = fun r => r == x || r == vf) : FrameHolds i :=
  frameHolds_of_next hx fun s =>
    framed_of_regs _ (hw s.cfg) (.of_overlay rfl) (hf s.cfg) (onlyRegs_setWithFlag s x (b s) (f s))

theorem frameHolds_setLogic {i : Instr} {x : Reg} {b : State → Byte}
    (hx : ∀ s, exec i s = .next (s.setLogic x (b s)).advance) (hw : ∀ c, partsWritten c i = [.pc, .regs])
    (hf : ∀ c, regWritten c i = fun r => r == x || (c.logicResetsVF && r == vf)) : FrameHolds i := by
  refine frameHolds_of_next hx fun s => framed_of_regs _ (hw s.cfg) ?_ (hf s.cfg) (onlyRegs_setLogic s x (b s))
  rw [State.setLogic_eq]
  exact .of_overlay rfl

theorem frameHolds_rnd (x : Reg) (nn : Byte) : FrameHolds (.rnd x nn) :=
  frameHolds_of_next (fun _ => rfl) fun s =>
    framed_of_regs [.pc, .regs, .draws] rfl (.of_overlay rfl) rfl (onlyRegs_setReg s.drawByte.2 x (s.drawByte.1 &&& nn))

theorem frameHolds_ret : FrameHolds .ret := fun s t he hx => by
  obtain rfl := Host.Outcome.next.inj ((exec_ret_of_ne_zero (errorOf_ret_eq_none.mp he)).symm.trans hx)
  exact framed_of_parts [.pc, .stack] rfl (.of_overlay rfl)

theorem frameHolds_call (nnn : Addr12) : FrameHolds (.call nnn) := fun s t he hx => by
  obtain rfl := Host.Outcome.next.inj ((exec_call_of_lt nnn (errorOf_call_eq_none.mp he)).symm.trans hx)
  exact framed_of_parts [.pc, .stack] rfl (.of_overlay rfl)

theorem frameHolds_drw (x y : Reg) (n : BitVec 4) : FrameHolds (.drw x y n) := frameHolds_of_outcome fun s => by
  obtain ⟨_, hx⟩ | hr := exec_drw_outcome x y n s
  · have hregs := onlyRegs_setReg { s with fb := (s.drawn x y n.toNat).1 } vf (flagByte (s.drawn x y n.toNat).2)
    exact .inl ⟨_, hx, framed_of_regs [.pc, .regs, .display] rfl (.of_overlay rfl) rfl hregs⟩
  · exact .inr hr

theorem frameHolds_ldBVx (x : Reg) : FrameHolds (.ldBVx x) := frameHolds_of_outcome fun s => by
  obtain ⟨_, hx⟩ | hr := exec_ldBVx_outcome x s
  · have hbytes := onlyBytes_writeBytes s s.base (bcdDigits (s.getReg x))
    have hparts := (onlyChanges_writeBytes s s.base (bcdDigits (s.getReg x))).trans (w' := [.pc]) (w'' := [.pc, .memory])
      (.of_overlay (t := State.advance _) rfl) (by simp) (by simp)
    exact .inl ⟨_, hx, hparts, hparts.onlyRegs (by decide) _, hbytes⟩
  · exact .inr hr

theorem frameHolds_stRegs (x : Reg) : FrameHolds (.stRegs x) := frameHolds_of_outcome fun s => by
  obtain ⟨_, hx⟩ | hr := exec_stRegs_outcome x s
  · have hparts := (onlyChanges_writeBytes s s.base (s.regBlock (blockSize x))).bumpIndex_advance
      (State.writeBytes_cfg ..) (blockSize x)
    have hbytes := onlyBytes_writeBytes s s.base (s.regBlock (blockSize x))
    rw [State.length_regBlock] at hbytes
    refine .inl ⟨_, hx, hparts, fun r _ => by simp, fun b hb => ?_⟩
    rw [State.readByte_advance, State.readByte_bumpIndex, hbytes b hb]
  · exact .inr hr

theorem frameHolds_ldRegs (x : Reg) : FrameHolds (.ldRegs x) := frameHolds_of_outcome fun s => by
  obtain ⟨_, hx⟩ | hr := exec_ldRegs_outcome x s
  · have hparts := (onlyChanges_setRegBlock s 0 ((List.range (blockSize x)).map fun j => s.readByte (s.base + j)))
      |>.bumpIndex_advance (State.setRegBlock_cfg ..) (blockSize x)
    have hregs := onlyRegs_setRegBlock s x
      (bs := (List.range (blockSize x)).map fun j => s.readByte (s.base + j)) (by simp)
    refine .inl ⟨_, hx, hparts, fun r hr => ?_, fun b _ => by simp⟩
    rw [State.getReg_advance, State.getReg_bumpIndex, hregs r hr]
  · exact .inr hr

/-- Every variant keeps its frame (R38). -/
theorem frameHolds : ∀ i : Instr, FrameHolds i
  | .sys _ | .jp _ | .jpV0 _ => frameHolds_jump (fun _ => rfl) fun _ => rfl
  | .seImm _ _ | .sneImm _ _ | .seReg _ _ | .sneReg _ _ | .skp _ | .sknp _ =>
    frameHolds_jump (fun s => skipIf_eq _ s) fun _ => rfl
  | .ret => frameHolds_ret
  | .call nnn => frameHolds_call nnn
  | .ldImm _ _ | .addImm _ _ | .ldReg _ _ | .ldVxDt _ => frameHolds_setReg (fun _ => rfl) (fun _ => rfl) fun _ => rfl
  | .orReg _ _ | .andReg _ _ | .xorReg _ _ => frameHolds_setLogic (fun _ => rfl) (fun _ => rfl) fun _ => rfl
  | .addReg _ _ | .sub _ _ | .shr _ _ | .subn _ _ | .shl _ _ =>
    frameHolds_setWithFlag (fun _ => rfl) (fun _ => rfl) fun _ => rfl
  | .rnd x nn => frameHolds_rnd x nn
  | .ldI _ | .addIVx _ | .ldFVx _ => frameHolds_setI (fun _ => rfl) fun _ => rfl
  | .cls => frameHolds_of_next (fun _ => rfl) fun _ => framed_of_parts [.pc, .display] rfl (.of_overlay rfl)
  | .ldVxK _ => frameHolds_of_next (fun _ => rfl) fun _ => framed_of_parts [.keyWait] rfl (.of_overlay rfl)
  | .ldDtVx _ => frameHolds_of_next (fun _ => rfl) fun _ => framed_of_parts [.pc, .delayTimer] rfl (.of_overlay rfl)
  | .ldStVx _ => frameHolds_of_next (fun _ => rfl) fun _ => framed_of_parts [.pc, .soundTimer] rfl (.of_overlay rfl)
  | .drw x y n => frameHolds_drw x y n
  | .ldBVx x => frameHolds_ldBVx x
  | .stRegs x => frameHolds_stRegs x
  | .ldRegs x => frameHolds_ldRegs x

/-- Settles O47, by the frame of each variant. -/
theorem frameOfControlFlow : Obligations.FrameOfControlFlow :=
  ⟨fun _ => frameHolds _, frameHolds _, fun _ => frameHolds _, fun _ => frameHolds _, fun _ => frameHolds _,
    fun _ _ => frameHolds _, fun _ _ => frameHolds _, fun _ _ => frameHolds _, fun _ _ => frameHolds _⟩

/-- Settles O48, by the frame of each variant. -/
theorem frameOfAlu : Obligations.FrameOfAlu := by
  refine ⟨?_, ?_, ?_, ?_, ?_, ?_, ?_, ?_, ?_, ?_, ?_, ?_⟩ <;> exact fun _ _ => frameHolds _

/-- Settles O49, by the frame of each variant. -/
theorem frameOfIndexAndMemory : Obligations.FrameOfIndexAndMemory := by
  refine ⟨?_, ?_, ?_, ?_, ?_, ?_⟩ <;> exact fun _ => frameHolds _

/-- Settles O50, by the frame of each variant. -/
theorem frameOfDisplayKeysAndTimers : Obligations.FrameOfDisplayKeysAndTimers :=
  ⟨frameHolds _, fun _ _ _ => frameHolds _, fun _ => frameHolds _, fun _ => frameHolds _, fun _ => frameHolds _,
    fun _ => frameHolds _, fun _ => frameHolds _, fun _ => frameHolds _⟩

end Sys2Proof.Machine
end

section
/-! PROOFS. The events `FrameOut` and `SetKeys` (spec/60_exceptions.md R230 to R232), the flag (spec/10_state.md R22), what
no step writes, the keys and the outputs (R30, R34), and what no step reads, the sound timer (R27) and the dead stack
entries (R25). -/

namespace Sys2Proof.Machine

open Sys2Proof.Safety

/-! ### `FrameOut` and `SetKeys` -/

theorem frameOut_of_running {s : State} (h : s.halted = false) :
    frameOut s = { s with frameOut := s.fb, soundOut := s.st != 0x00#8 } := if_neg (by simp [h])

theorem setKeys_of_running {s : State} (k : Word) (h : s.halted = false) : setKeys k s = { s with keys := k } :=
  if_neg (by simp [h])

/-- Settles O41, by whether the machine is halted. -/
theorem frameOutAndSetKeysWriteTheirOwn : Obligations.FrameOutAndSetKeysWriteTheirOwn := by
  refine fun k s => ⟨fun h => ?_, fun h => ⟨frameOut_of_halted h, setKeys_of_halted k h⟩⟩
  rw [frameOut_of_running h, setKeys_of_running k h]
  exact ⟨fun _ _ => rfl, bne_iff_ne, .of_overlay rfl, rfl, .of_overlay rfl⟩

/-! ### The flag -/

theorem flagByte_eq_zero_or_one (f : Bool) : flagByte f = 0x00#8 ∨ flagByte f = 0x01#8 := by
  cases f
  · exact .inl rfl
  · exact .inr rfl

theorem State.getReg_vf_setFlag (s : State) (f : Bool) : (s.setFlag f).getReg vf = flagByte f := by
  rw [State.getReg_setFlag, if_pos rfl]

/-- An instruction that writes the flag last (spec/42_alu.md R173). -/
theorem flag_zero_or_one_of_next {i : Instr} {s t u : State} {f : Bool} (hx : exec i s = .next (u.setFlag f).advance)
    (h : exec i s = .next t) : t.getReg vf = 0x00#8 ∨ t.getReg vf = 0x01#8 := by
  obtain rfl := Host.Outcome.next.inj (hx.symm.trans h)
  rw [State.getReg_advance, State.getReg_vf_setFlag]
  exact flagByte_eq_zero_or_one f

theorem State.setLogic_of_quirk {s : State} (h : s.cfg.logicResetsVF = true) (x : Reg) (b : Byte) :
    s.setLogic x b = (s.setReg x b).setFlag false := if_pos h

theorem flag_zero_or_one_of_logic {i : Instr} {s t : State} {x : Reg} {b : Byte} (hq : s.cfg.logicResetsVF = true)
    (hx : exec i s = .next (s.setLogic x b).advance) (h : exec i s = .next t) :
    t.getReg vf = 0x00#8 ∨ t.getReg vf = 0x01#8 :=
  flag_zero_or_one_of_next (State.setLogic_of_quirk hq x b ▸ hx) h

/-- Settles O51: each of these instructions writes the flag last. -/
theorem definedFlagIsZeroOrOne : Obligations.DefinedFlagIsZeroOrOne := by
  rintro i s t ⟨x, y, hi⟩ he hx
  obtain rfl | rfl | rfl | rfl | rfl | ⟨n, rfl⟩ | ⟨hq, rfl | rfl | rfl⟩ := hi
  iterate 5 exact flag_zero_or_one_of_next rfl hx
  · obtain ⟨_, hd⟩ | hr := exec_drw_outcome x y n s
    · exact flag_zero_or_one_of_next hd hx
    · exact absurd he hr.errorOf_ne_none
  iterate 3 exact flag_zero_or_one_of_logic hq rfl hx

/-! ### Parts no step writes -/

theorem onlyChanges_takeError (s : State) (k : ErrorKind) (a w : Word) :
    OnlyChanges [.errorLatch, .pc] s (s.takeError k a w) := by
  unfold State.takeError
  split <;> exact .of_overlay rfl

/-- Everything a poll can write (spec/40_execution_cycle.md R122). -/
theorem onlyChanges_keyWaitPoll (s : State) : OnlyChanges [.regs, .keyWait, .pc] s s.keyWaitPoll := by
  obtain ⟨_, heq⟩ | ⟨k, _, heq⟩ := s.keyWaitPoll_cases
  · rw [heq]
    exact .of_overlay rfl
  · rw [heq]
    exact .of_overlay rfl

/-- An error of the table writes the latch and `pc` alone (R126, R127). -/
theorem Raises.same {i : Instr} {s t : State} {p : Part} (hr : Raises i s) (h : exec i s = .next t)
    (hp : p ∉ [Part.errorLatch, .pc]) : p.Same s t := by
  obtain ⟨k, a, _, hx⟩ := hr
  obtain rfl := Host.Outcome.next.inj (hx.symm.trans h)
  exact onlyChanges_takeError s k a _ p hp

/-- A part that an instruction's row does not name is left alone by it, completed or not, unless an error writes it. -/
theorem exec_same {i : Instr} {s t : State} {p : Part} (h : exec i s = .next t) (hp : p ∉ partsWritten s.cfg i)
    (herr : p ∉ [Part.errorLatch, .pc]) : p.Same s t := by
  obtain he | hr := errorOf_none_or_raises s i
  · exact (frameHolds i s t he h).1 p hp
  · exact hr.same h herr

/-- No row of R38 names the keys or the outputs. -/
theorem not_mem_partsWritten {p : Part} (hp : p = .keys ∨ p = .outputs) (c : Config) (i : Instr) :
    p ∉ partsWritten c i := by
  obtain rfl | rfl := hp <;> cases i <;> simp [partsWritten] <;> split <;> simp

theorem step_same_keys_outputs {s t : State} {p : Part} (h : step s = .next t) (hp : p = .keys ∨ p = .outputs) :
    p.Same s t := by
  obtain rfl | ⟨_, rfl⟩ | ⟨_, k, a, w, rfl⟩ | ⟨_, w, i, _, _, hx⟩ := step_next h
  · exact OnlyChanges.of_overlay (w := []) rfl p (List.not_mem_nil)
  · exact onlyChanges_keyWaitPoll s p (by obtain rfl | rfl := hp <;> decide)
  · exact onlyChanges_takeError s k a w p (by obtain rfl | rfl := hp <;> decide)
  · exact exec_same hx (not_mem_partsWritten hp _ _) (by obtain rfl | rfl := hp <;> decide)

/-- Settles O52: no row of R38 names them, a poll writes neither, and an error only the latch and `pc`. -/
theorem stepLeavesKeysAndOutputs : Obligations.StepLeavesKeysAndOutputs := fun _ _ h =>
  ⟨step_same_keys_outputs h (.inl rfl), step_same_keys_outputs h (.inr rfl)⟩

/-! ### A step, by what it fetches (spec/40_execution_cycle.md R120) -/

theorem step_of_waiting {s : State} (hh : s.halted = false) (hw : s.wait = true) : step s = .next s.keyWaitPoll := by
  simp [step, hh, hw]

theorem step_of_fetch_error {s : State} {a : Nat} (hh : s.halted = false) (hw : s.wait = false)
    (hf : s.fetch = .error a) : step s = raiseBounds a 0x0000#16 s := by
  simp [step, hh, hw, hf]

theorem step_of_decode_error {s : State} {w : Word} {e : DecodeFailure} (hh : s.halted = false) (hw : s.wait = false)
    (hf : s.fetch = .ok w) (hd : decode w = .error e) : step s = raise .decodeError s.pc w s := by
  simp [step, hh, hw, hf, hd]

theorem step_of_decode_ok {s : State} {w : Word} {i : Instr} (hh : s.halted = false) (hw : s.wait = false)
    (hf : s.fetch = .ok w) (hd : decode w = .ok i) : step s = exec i s := by
  simp [step, hh, hw, hf, hd]

/-! ### Who writes the stack and the sound timer (R38) -/

theorem stack_mem_partsWritten {c : Config} {i : Instr} :
    .stack ∈ partsWritten c i ↔ i = .ret ∨ ∃ nnn, i = .call nnn := by
  cases i <;> simp [partsWritten] <;> split <;> simp

theorem soundTimer_mem_partsWritten {c : Config} {i : Instr} :
    .soundTimer ∈ partsWritten c i ↔ ∃ x, i = .ldStVx x := by
  cases i <;> simp [partsWritten] <;> split <;> simp

/-! ### Updates of the sound timer and of the stack, under a step -/

/-- `s` with its sound timer and its return stack changed. -/
def State.mapUnread (f : Byte → Byte) (g : Vector Word 16 → Vector Word 16) (s : State) : State :=
  { s with st := f s.st, stack := g s.stack }

/-- An answer with its next state changed. -/
def mapNext (f : State → State) : Result → Result
  | .next s => .next (f s)
  | .fault r => .fault r
  | .refused r => .refused r

section
variable (f : Byte → Byte) (g : Vector Word 16 → Vector Word 16)

theorem State.setLogic_mapUnread (s : State) (x : Reg) (b : Byte) :
    (s.mapUnread f g).setLogic x b = (s.setLogic x b).mapUnread f g := by
  unfold State.setLogic
  rw [apply_ite (State.mapUnread f g)]
  rfl

theorem State.bumpIndex_advance_mapUnread {s s' : State} (h : s' = s.mapUnread f g) (n : Nat) :
    (s'.bumpIndex n).advance = (s.bumpIndex n).advance.mapUnread f g := by
  unfold State.bumpIndex
  rw [h, apply_ite State.advance, apply_ite State.advance, apply_ite (State.mapUnread f g)]
  rfl

theorem State.setRegBlock_mapUnread (s : State) (j : Nat) (bs : List Byte) :
    (s.mapUnread f g).setRegBlock j bs = (s.setRegBlock j bs).mapUnread f g := by
  induction bs generalizing s j with
  | nil => rfl
  | cons b bs ih => exact ih (s.setReg _ b) (j + 1)

theorem State.writeBytes_mapUnread (s : State) (a : Nat) (bs : List Byte) :
    (s.mapUnread f g).writeBytes a bs = (s.writeBytes a bs).mapUnread f g := by
  induction bs generalizing s a with
  | nil => rfl
  | cons b bs ih => exact ih (s.writeByte a b) (a + 1)

theorem State.takeError_mapUnread (s : State) (k : ErrorKind) (a w : Word) :
    (s.mapUnread f g).takeError k a w = (s.takeError k a w).mapUnread f g := by
  have hp : (s.mapUnread f g).cfg.errorPolicy = s.cfg.errorPolicy := rfl
  unfold State.takeError
  rw [hp]
  split <;> rfl

theorem State.keyWaitPoll_mapUnread (s : State) :
    (s.mapUnread f g).keyWaitPoll = s.keyWaitPoll.mapUnread f g := by
  have hk : (s.mapUnread f g).keys = s.keys := rfl
  unfold State.keyWaitPoll
  rw [hk]
  split <;> rfl

theorem skipIf_mapUnread (c : Bool) (s : State) :
    skipIf c (s.mapUnread f g) = mapNext (State.mapUnread f g) (skipIf c s) := by
  cases c <;> rfl

theorem raise_mapUnread (k : ErrorKind) (a w : Word) (s : State) :
    raise k a w (s.mapUnread f g) = mapNext (State.mapUnread f g) (raise k a w s) :=
  congrArg _ (State.takeError_mapUnread f g s k a w)

theorem errorOf_mapUnread (i : Instr) (s : State) : errorOf i (s.mapUnread f g) = errorOf i s := by
  cases i <;> rfl

/-- An error of the table reads neither the sound timer nor the stack's entries. -/
theorem exec_mapUnread_of_raises {i : Instr} {s : State} (h : Raises i s) :
    exec i (s.mapUnread f g) = mapNext (State.mapUnread f g) (exec i s) := by
  obtain ⟨k, a, he, hx⟩ := h
  have he' := (errorOf_mapUnread f g i s).trans he
  obtain hn | ⟨k', a', hs, hx'⟩ := errorOf_none_or_raises (s.mapUnread f g) i
  · exact absurd (hn.symm.trans he') nofun
  · cases hs.symm.trans he'
    rw [hx', hx, raise_mapUnread]

/-- An instruction whose completion commutes with the update. -/
theorem exec_mapUnread_of_outcome {i : Instr} {u : State → State}
    (ho : ∀ s, (errorOf i s = none ∧ exec i s = .next (u s)) ∨ Raises i s) {s : State}
    (hu : u (s.mapUnread f g) = (u s).mapUnread f g) :
    exec i (s.mapUnread f g) = mapNext (State.mapUnread f g) (exec i s) := by
  obtain ⟨he, hx⟩ | hr := ho s
  · obtain ⟨_, hx'⟩ | hr' := ho (s.mapUnread f g)
    · rw [hx', hx, hu, mapNext]
    · exact absurd ((errorOf_mapUnread f g i s).trans he) hr'.errorOf_ne_none
  · exact exec_mapUnread_of_raises f g hr

/-- An instruction commutes with the update where it writes neither the sound timer nor the stack (R38). -/
theorem exec_mapUnread (s : State) (i : Instr) (hstack : .stack ∉ partsWritten s.cfg i)
    (hst : .soundTimer ∉ partsWritten s.cfg i) :
    exec i (s.mapUnread f g) = mapNext (State.mapUnread f g) (exec i s) := by
  cases i with
  | ret => exact absurd (stack_mem_partsWritten.mpr (.inl rfl)) hstack
  | call nnn => exact absurd (stack_mem_partsWritten.mpr (.inr ⟨nnn, rfl⟩)) hstack
  | ldStVx x => exact absurd (soundTimer_mem_partsWritten.mpr ⟨x, rfl⟩) hst
  | sys | cls | jp | jpV0 | ldImm | addImm | ldReg | addReg | sub | shr | subn | shl | rnd | ldI | addIVx | ldFVx
  | ldVxDt | ldVxK | ldDtVx => rfl
  | seImm | sneImm | seReg | sneReg | skp | sknp => exact skipIf_mapUnread f g _ s
  | orReg | andReg | xorReg =>
    exact exec_mapUnread_of_outcome f g (fun _ => .inl ⟨rfl, rfl⟩)
      (congrArg State.advance (State.setLogic_mapUnread ..))
  | drw x y n => exact exec_mapUnread_of_outcome f g (exec_drw_outcome x y n) rfl
  | ldBVx x =>
    exact exec_mapUnread_of_outcome f g (exec_ldBVx_outcome x) (congrArg State.advance (State.writeBytes_mapUnread ..))
  | stRegs x =>
    exact exec_mapUnread_of_outcome f g (exec_stRegs_outcome x)
      (State.bumpIndex_advance_mapUnread f g (State.writeBytes_mapUnread ..) _)
  | ldRegs x =>
    exact exec_mapUnread_of_outcome f g (exec_ldRegs_outcome x)
      (State.bumpIndex_advance_mapUnread f g (State.setRegBlock_mapUnread ..) _)

/-- A step under the update: outside `exec` it commutes with it and leaves the stack. -/
theorem step_mapUnread {s t : State} (h : step s = .next t) :
    (step (s.mapUnread f g) = .next (t.mapUnread f g) ∧ Part.stack.Same s t) ∨
    ∃ i, exec i s = .next t ∧ step (s.mapUnread f g) = exec i (s.mapUnread f g) := by
  obtain ⟨hh, hx⟩ | ⟨hh, hw, hx⟩ | ⟨hh, hw, a, hf, hx⟩ | ⟨hh, hw, w, e, hf, hd, hx⟩ | ⟨hh, hw, w, i, hf, hd, hx⟩ :=
    step_cases s
  all_goals have ht := hx.symm.trans h
  · obtain rfl := Host.Outcome.next.inj ht
    exact .inl ⟨step_of_halted (s := s.mapUnread f g) hh, rfl, rfl⟩
  · obtain rfl := Host.Outcome.next.inj ht
    refine .inl ⟨?_, onlyChanges_keyWaitPoll s .stack (by decide)⟩
    exact (step_of_waiting (s := s.mapUnread f g) hh hw).trans (congrArg _ (State.keyWaitPoll_mapUnread f g s))
  · obtain rfl := Host.Outcome.next.inj ht
    refine .inl ⟨?_, onlyChanges_takeError s _ _ _ .stack (by decide)⟩
    exact (step_of_fetch_error (s := s.mapUnread f g) hh hw hf).trans (raise_mapUnread f g _ _ _ s)
  · obtain rfl := Host.Outcome.next.inj ht
    refine .inl ⟨?_, onlyChanges_takeError s _ _ _ .stack (by decide)⟩
    exact (step_of_decode_error (s := s.mapUnread f g) hh hw hf hd).trans (raise_mapUnread f g _ _ _ s)
  · exact .inr ⟨i, ht, step_of_decode_ok (s := s.mapUnread f g) hh hw hf hd⟩

end

/-! ### The sound timer is not read -/

theorem exec_with_st {i : Instr} {s t : State} (b : Byte) (h : exec i s = .next t) :
    ∃ u, exec i { s with st := b } = .next u ∧ u = { t with st := u.st } := by
  have hcomm (hx : exec i (s.mapUnread (fun _ => b) id) = mapNext (State.mapUnread (fun _ => b) id) (exec i s)) :
      ∃ u, exec i { s with st := b } = .next u ∧ u = { t with st := u.st } :=
    ⟨_, hx.trans (by rw [h, mapNext]), rfl⟩
  obtain he | hr := errorOf_none_or_raises s i
  case inr => exact hcomm (exec_mapUnread_of_raises _ _ hr)
  by_cases hk : .stack ∈ partsWritten s.cfg i
  · obtain rfl | ⟨nnn, rfl⟩ := stack_mem_partsWritten.mp hk
    · have hs := errorOf_ret_eq_none.mp he
      obtain rfl := Host.Outcome.next.inj ((exec_ret_of_ne_zero hs).symm.trans h)
      exact ⟨_, exec_ret_of_ne_zero (s := { s with st := b }) hs, rfl⟩
    · have hs := errorOf_call_eq_none.mp he
      obtain rfl := Host.Outcome.next.inj ((exec_call_of_lt nnn hs).symm.trans h)
      exact ⟨_, exec_call_of_lt (s := { s with st := b }) nnn hs, rfl⟩
  · by_cases hst : .soundTimer ∈ partsWritten s.cfg i
    · obtain ⟨x, rfl⟩ := soundTimer_mem_partsWritten.mp hst
      obtain rfl := Host.Outcome.next.inj h
      exact ⟨_, rfl, rfl⟩
    · exact hcomm (exec_mapUnread _ _ s i hk hst)

/-- Settles O54: outside `exec` a step commutes with a change of the sound timer; `exec_with_st` is the rest. -/
theorem noStepReadsTheSoundTimer : Obligations.NoStepReadsTheSoundTimer := by
  intro s t b h
  obtain ⟨hx, _⟩ | ⟨i, hi, hx⟩ := step_mapUnread (fun _ => b) id h
  · exact ⟨_, hx, rfl⟩
  · obtain ⟨u, hu, heq⟩ := exec_with_st b hi
    exact ⟨u, hx.trans hu, heq⟩

/-! ### Dead stack entries are not read -/

/-- A change of dead entries stays one where neither the stack nor its count changes. -/
theorem sameButDeadStack_of_stack_same {s t : State} {k : Vector Word 16} (hs : SameButDeadStack s { s with stack := k })
    (h : Part.stack.Same s t) : SameButDeadStack t (t.mapUnread id fun _ => k) := by
  obtain ⟨_, hlive⟩ := hs
  obtain ⟨hsp, hstack⟩ := h
  refine ⟨rfl, fun j hj => ?_⟩
  simp only [State.mapUnread, hstack]
  exact hlive j (hsp ▸ hj)

/-- `RET` reads the live entry below `SP`. -/
theorem exec_ret_sameButDeadStack {s t : State} {k : Vector Word 16} (hs : SameButDeadStack s { s with stack := k })
    (hsp : s.sp.val ≠ 0) (h : exec .ret s = .next t) :
    ∃ t', exec .ret { s with stack := k } = .next t' ∧ SameButDeadStack t t' := by
  obtain ⟨_, hlive⟩ := hs
  obtain rfl := Host.Outcome.next.inj ((exec_ret_of_ne_zero hsp).symm.trans h)
  have htop := hlive ⟨s.sp.val - 1, by omega⟩ (by simp only; omega)
  refine ⟨_, exec_ret_of_ne_zero (s := { s with stack := k }) hsp, ?_, fun j hj => hlive j ?_⟩
  · simp only at htop
    simp only [htop]
  · simp only at hj
    omega

/-- `CALL` reads no entry, and makes the dead entry at `SP` live by writing it. -/
theorem exec_call_sameButDeadStack {s t : State} {k : Vector Word 16} {nnn : Addr12}
    (hs : SameButDeadStack s { s with stack := k }) (hsp : s.sp.val < 16) (h : exec (.call nnn) s = .next t) :
    ∃ t', exec (.call nnn) { s with stack := k } = .next t' ∧ SameButDeadStack t t' := by
  obtain ⟨_, hlive⟩ := hs
  obtain rfl := Host.Outcome.next.inj ((exec_call_of_lt nnn hsp).symm.trans h)
  refine ⟨_, exec_call_of_lt (s := { s with stack := k }) nnn hsp, rfl, fun j hj => ?_⟩
  simp only [Vector.getElem_set]
  split
  · rfl
  · exact hlive j (by simp only at hj; omega)

theorem exec_sameButDeadStack {i : Instr} {s t : State} {k : Vector Word 16}
    (hs : SameButDeadStack s { s with stack := k }) (h : exec i s = .next t) :
    ∃ t', exec i { s with stack := k } = .next t' ∧ SameButDeadStack t t' := by
  have hcomm (hx : exec i (s.mapUnread id fun _ => k) = mapNext (State.mapUnread id fun _ => k) (exec i s))
      (hsame : Part.stack.Same s t) : ∃ t', exec i { s with stack := k } = .next t' ∧ SameButDeadStack t t' :=
    ⟨_, hx.trans (by rw [h, mapNext]), sameButDeadStack_of_stack_same hs hsame⟩
  obtain he | hr := errorOf_none_or_raises s i
  case inr => exact hcomm (exec_mapUnread_of_raises _ _ hr) (hr.same h (by decide))
  by_cases hk : .stack ∈ partsWritten s.cfg i
  · obtain rfl | ⟨nnn, rfl⟩ := stack_mem_partsWritten.mp hk
    · exact exec_ret_sameButDeadStack hs (errorOf_ret_eq_none.mp he) h
    · exact exec_call_sameButDeadStack hs (errorOf_call_eq_none.mp he) h
  · refine hcomm ?_ (exec_same h hk (by decide))
    by_cases hst : .soundTimer ∈ partsWritten s.cfg i
    · obtain ⟨x, rfl⟩ := soundTimer_mem_partsWritten.mp hst
      rfl
    · exact exec_mapUnread _ _ s i hk hst

/-- Settles O55: outside `exec` a step leaves the stack; `exec_sameButDeadStack` is the rest. -/
theorem deadStackEntriesAreUnobservable : Obligations.DeadStackEntriesAreUnobservable := by
  intro s s' t hs h
  obtain ⟨k, rfl⟩ : ∃ k, s' = { s with stack := k } := ⟨_, hs.1⟩
  obtain ⟨hx, hstack⟩ | ⟨i, hi, hx⟩ := step_mapUnread id (fun _ => k) h
  · exact ⟨_, hx, sameButDeadStack_of_stack_same hs hstack⟩
  · obtain ⟨t', ht', hsame⟩ := exec_sameButDeadStack hs hi
    exact ⟨t', hx.trans ht', hsame⟩

end Sys2Proof.Machine
end


section
/-! PROOFS. A register dump and the fetch after it (spec/20_memory.md R73, spec/70_reset_and_hazards.md R257). -/

namespace Sys2Proof.Machine

open Sys2Proof.Safety

theorem errorOf_stRegs_eq_none {s : State} {x : Reg} :
    errorOf (.stRegs x) s = none ↔ s.i.toNat + x.toNat ≤ 0xFFF := by
  simp [errorOf]

theorem exec_stRegs_of_inBounds {s : State} {x : Reg} (h : s.i.toNat + x.toNat ≤ 0xFFF) :
    exec (.stRegs x) s =
      .next ((s.writeBytes s.base (s.regBlock (blockSize x))).bumpIndex (blockSize x)).advance :=
  (exec_stRegs_outcome x s).elim (·.2) fun hr => absurd (errorOf_stRegs_eq_none.mpr h) hr.errorOf_ne_none

theorem State.getD_regBlock (s : State) {j n : Nat} (h : j < n) (b : Byte) :
    (s.regBlock n).getD j b = s.getReg (BitVec.ofNat 4 j) := by
  simp [State.regBlock, h]

/-- What a register dump of `n` registers at `a` leaves at `a + j` (R184). -/
theorem State.readByte_writeBytes_regBlock {s : State} (hm : MemoryCanonical s) {a j n : Nat} (hj : j < n)
    (hn : a + n ≤ 0x1000) : (s.writeBytes a (s.regBlock n)).readByte (a + j) = s.getReg (BitVec.ofNat 4 j) := by
  have hlen := s.length_regBlock n
  rw [State.readByte_writeBytes hm _ _ (by omega), if_pos (by omega), Nat.add_sub_cancel_left, s.getD_regBlock hj]

theorem State.fetch_of_pc_le {s : State} (h : s.pc.toNat ≤ 0xFFE) :
    s.fetch = .ok (wordOfBytes (s.readByte s.pc.toNat) (s.readByte (s.pc.toNat + 1))) :=
  s.fetch_eq.trans (if_pos h)

/-- The fetch after a dump of at least two registers to the address of the next instruction. -/
theorem fetch_after_regBlock {s : State} (hm : MemoryCanonical s) {n : Nat} (h2 : 2 ≤ n) (hi : s.i = s.pc + 2#16)
    (hn : s.i.toNat + n ≤ 0x1000) :
    ((s.writeBytes s.base (s.regBlock n)).bumpIndex n).advance.fetch =
      .ok (wordOfBytes (s.getReg 0x0#4) (s.getReg 0x1#4)) := by
  have hpc : ((s.writeBytes s.base (s.regBlock n)).bumpIndex n).advance.pc = s.i := by simp [hi]
  have h0 : (s.writeBytes s.base (s.regBlock n)).readByte s.i.toNat = s.getReg 0x0#4 :=
    State.readByte_writeBytes_regBlock hm (j := 0) (by omega) hn
  have h1 : (s.writeBytes s.base (s.regBlock n)).readByte (s.i.toNat + 1) = s.getReg 0x1#4 :=
    State.readByte_writeBytes_regBlock hm (j := 1) (by omega) hn
  rw [State.fetch_of_pc_le (by rw [hpc]; omega), hpc, State.readByte_advance, State.readByte_bumpIndex,
    State.readByte_advance, State.readByte_bumpIndex, h0, h1]

/-- Settles O32: the dump completes within bounds, moves `pc` to `I`, and the fetch there reads back the first two of the
bytes it stored. -/
theorem storeIsSeenByTheNextFetch : Obligations.StoreIsSeenByTheNextFetch := by
  intro s w x hm hh hw hf hd hx hi hin
  refine ⟨_, (step_of_decode_ok hh hw hf hd).trans (exec_stRegs_of_inBounds hin), ?_⟩
  exact fetch_after_regBlock hm (by rw [blockSize]; omega) hi (by rw [blockSize]; omega)

end Sys2Proof.Machine
end


section
/-! PROOFS. The decoder and the encoder are inverse to each other, and the words that do not decode are those of the table
of illegal encodings (spec/30_encoding.md R96 to R99, R103). -/

namespace Sys2Proof

/-! ### Class 0 (R97, R99) -/

theorem eq_addr_iff {w : Word} {a : BitVec 4} (hop : opField w = a) (n : Addr12) :
    w = (a ++ n : Word) ↔ nnnField w = n := by
  refine ⟨fun h => h ▸ nnnField_addr a n, fun h => ?_⟩
  rw [← hop, ← h, word_of_addr]

/-- Within class 0 the address alone tells the three rows apart. -/
theorem decodeClass0_eq {w : Word} (hop : opField w = 0x0#4) :
    decodeClass0 w =
      if nnnField w = 0x0E0#12 then .cls else if nnnField w = 0x0EE#12 then .ret else .sys (nnnField w) := by
  simp only [decodeClass0, ← eq_addr_iff hop]
  rfl

theorem decodeClass0_sys {nnn : Addr12} (h : (Instr.sys nnn).wf = true) : decodeClass0 (0x0#4 ++ nnn) = .sys nnn := by
  simp only [Instr.wf, Bool.and_eq_true, bne_iff_ne] at h
  obtain ⟨hcls, hret⟩ := h
  rw [decodeClass0_eq (opField_addr _ _), nnnField_addr, if_neg hcls, if_neg hret]

/-! ### Decoding what was encoded -/

theorem decode_encode {i : Instr} (h : i.wf = true) : decode (encode i) = .ok i := by
  cases i
  case sys nnn => simp [encode, decode, decodeClass0_sys h]
  case cls | ret => rfl
  case jp | call | ldI | jpV0 => simp [encode, decode]
  case seImm | sneImm | ldImm | addImm | rnd => simp [encode, decode]
  case seReg | sneReg | drw => simp [encode, decode]
  case ldReg | orReg | andReg | xorReg | addReg | sub | shr | subn | shl => simp [encode, decode, decodeClass8]
  case skp | sknp => simp [encode, decode, decodeClassE]
  case ldVxDt | ldVxK | ldDtVx | ldStVx | addIVx | ldFVx | ldBVx | stRegs | ldRegs =>
    simp [encode, decode, decodeClassF]

/-- On bytes the decoder takes the two of the word and leaves the rest (R90, R91). -/
theorem decodeBytes_bytesOfWord (w : Word) (rest : List Byte) :
    decodeBytes (bytesOfWord w ++ rest) = (decode w).map (·, rest) := by
  have hw : wordOfBytes (w.extractLsb' 8 8) (w.extractLsb' 0 8) = w := wordOfBytes_bytesOfWord w
  simp only [bytesOfWord, List.cons_append, List.nil_append, decodeBytes, hw]
  cases decode w <;> rfl

/-- Settles O2: `decode_encode` row by row; the two bytes of a word put together are the word. -/
theorem decodeOfEncodeIsTheInstruction : Obligations.DecodeOfEncodeIsTheInstruction := fun i h =>
  ⟨decode_encode h, fun rest => by rw [encodeBytes, decodeBytes_bytesOfWord, decode_encode h]; rfl⟩

/-! ### What the decoder answers to a word -/

/-- The table of illegal encodings (R98). -/
def IllegalWord (w : Word) : Prop :=
  (opField w = 0x5#4 ∧ nField w ≠ 0x0#4) ∨
  (opField w = 0x8#4 ∧ nField w ∈ [0x8#4, 0x9#4, 0xA#4, 0xB#4, 0xC#4, 0xD#4, 0xF#4]) ∨
  (opField w = 0x9#4 ∧ nField w ≠ 0x0#4) ∨
  (opField w = 0xE#4 ∧ nnField w ∉ [0x9E#8, 0xA1#8]) ∨
  (opField w = 0xF#4 ∧ nnField w ∉ [0x07#8, 0x0A#8, 0x15#8, 0x18#8, 0x1E#8, 0x29#8, 0x33#8, 0x55#8, 0x65#8])

/-- What a decoder may answer to `w`: to a legal word the well-formed instruction whose encoding it is, to an illegal one
a DecodeError. -/
def RightAnswer (w : Word) : Except DecodeFailure Instr → Prop
  | .ok i => ¬ IllegalWord w ∧ encode i = w ∧ i.wf = true
  | .error e => IllegalWord w ∧ e = .decodeError

section
variable {w : Word} {i : Instr} {a n : BitVec 4} {nn : Byte}

theorem rightAnswer_addr (hl : ¬ IllegalWord w) (hop : opField w = a) (hi : encode i = (a ++ nnnField w : Word))
    (hwf : i.wf = true) : RightAnswer w (.ok i) :=
  ⟨hl, by rw [hi, ← hop, word_of_addr], hwf⟩

theorem rightAnswer_reg_byte (hl : ¬ IllegalWord w) (hop : opField w = a) (hnn : nnField w = nn)
    (hi : encode i = (a ++ xField w ++ nn : Word)) (hwf : i.wf = true) : RightAnswer w (.ok i) :=
  ⟨hl, by rw [hi, ← hop, ← hnn, word_of_reg_byte], hwf⟩

theorem rightAnswer_nibbles (hl : ¬ IllegalWord w) (hop : opField w = a) (hn : nField w = n)
    (hi : encode i = (a ++ xField w ++ yField w ++ n : Word)) (hwf : i.wf = true) : RightAnswer w (.ok i) :=
  ⟨hl, by rw [hi, ← hop, ← hn, word_of_nibbles], hwf⟩

end

theorem decodeClass0_rightAnswer {w : Word} (hop : opField w = 0x0#4) : RightAnswer w (.ok (decodeClass0 w)) := by
  have hl : ¬ IllegalWord w := by simp [IllegalWord, hop]
  rw [decodeClass0_eq hop]
  split
  next hcls => exact rightAnswer_addr hl hop (by rw [hcls]; rfl) rfl
  next hcls =>
    split
    next hret => exact rightAnswer_addr hl hop (by rw [hret]; rfl) rfl
    next hret => exact rightAnswer_addr hl hop rfl (by simp [Instr.wf, hcls, hret])

theorem mem_undefined_of_not_mem_class8 : ∀ n : BitVec 4,
    n ∉ [0x0#4, 0x1#4, 0x2#4, 0x3#4, 0x4#4, 0x5#4, 0x6#4, 0x7#4, 0xE#4] →
    n ∈ [0x8#4, 0x9#4, 0xA#4, 0xB#4, 0xC#4, 0xD#4, 0xF#4] := by decide

theorem decodeClass8_rightAnswer {w : Word} (hop : opField w = 0x8#4) : RightAnswer w (decodeClass8 w) := by
  unfold decodeClass8
  split
  case h_10 => exact ⟨.inr (.inl ⟨hop, mem_undefined_of_not_mem_class8 _ (by simp_all)⟩), rfl⟩
  all_goals
    next hn => exact rightAnswer_nibbles (by simp [IllegalWord, hop, hn]) hop hn rfl rfl

theorem decodeClassE_rightAnswer {w : Word} (hop : opField w = 0xE#4) : RightAnswer w (decodeClassE w) := by
  unfold decodeClassE
  split
  case h_3 => exact ⟨.inr (.inr (.inr (.inl ⟨hop, by simp_all⟩))), rfl⟩
  all_goals
    next hnn => exact rightAnswer_reg_byte (by simp [IllegalWord, hop, hnn]) hop hnn rfl rfl

theorem decodeClassF_rightAnswer {w : Word} (hop : opField w = 0xF#4) : RightAnswer w (decodeClassF w) := by
  unfold decodeClassF
  split
  case h_10 => exact ⟨.inr (.inr (.inr (.inr ⟨hop, by simp_all⟩))), rfl⟩
  all_goals
    next hnn => exact rightAnswer_reg_byte (by simp [IllegalWord, hop, hnn]) hop hnn rfl rfl

theorem eq_classF_of_not_mem : ∀ a : BitVec 4,
    a ∉ [0x0#4, 0x1#4, 0x2#4, 0x3#4, 0x4#4, 0x5#4, 0x6#4, 0x7#4, 0x8#4, 0x9#4, 0xA#4, 0xB#4, 0xC#4, 0xD#4, 0xE#4] →
    a = 0xF#4 := by decide

theorem decode_rightAnswer (w : Word) : RightAnswer w (decode w) := by
  unfold decode
  split
  case h_1 hop => exact decodeClass0_rightAnswer hop
  case h_9 hop => exact decodeClass8_rightAnswer hop
  case h_15 hop => exact decodeClassE_rightAnswer hop
  case h_16 => exact decodeClassF_rightAnswer (eq_classF_of_not_mem _ (by simp_all))
  case h_6 hop | h_10 hop =>
    split
    next hn => exact rightAnswer_nibbles (by simp [IllegalWord, hn, hop]) hop hn rfl rfl
    next hn => exact ⟨by simp [IllegalWord, hn, hop], rfl⟩
  case h_14 hop => exact rightAnswer_nibbles (by simp [IllegalWord, hop]) hop rfl rfl rfl
  case h_2 hop | h_3 hop | h_11 hop | h_12 hop => exact rightAnswer_addr (by simp [IllegalWord, hop]) hop rfl rfl
  case h_4 hop | h_5 hop | h_7 hop | h_8 hop | h_13 hop =>
    exact rightAnswer_reg_byte (by simp [IllegalWord, hop]) hop rfl rfl rfl

/-- Settles O3: the right answer to a legal word is the instruction it encodes. -/
theorem encodeOfDecodeIsTheWord : Obligations.EncodeOfDecodeIsTheWord := fun w i h => by
  have ha := decode_rightAnswer w
  rw [h] at ha
  exact ha.2

/-- Settles O4: the right answer is an error exactly where the word is illegal. -/
theorem decodeFailsExactlyOnTheIllegalWords : Obligations.DecodeFailsExactlyOnTheIllegalWords := fun w => by
  change decode w = .error .decodeError ↔ IllegalWord w
  have ha := decode_rightAnswer w
  cases hd : decode w with
  | ok i =>
    obtain ⟨hl, -, -⟩ := hd ▸ ha
    exact ⟨nofun, fun hw => absurd hw hl⟩
  | error e =>
    obtain ⟨hw, rfl⟩ := hd ▸ ha
    exact ⟨fun _ => hw, fun _ => rfl⟩

/-- Settles O1: the decoder runs on each of the words. -/
theorem decodeReadsTheWordsOfTheSpec : Obligations.DecodeReadsTheWordsOfTheSpec :=
  ⟨rfl, rfl, rfl, rfl, rfl, rfl, rfl, rfl, rfl, rfl, rfl⟩

end Sys2Proof
end

section
/-! PROOFS. The execution cycle (spec/40_execution_cycle.md R120 to R130): the halt check, the key-wait poll, the fetch, the
errors under either policy, and the draws of `RND`. -/

namespace Sys2Proof.Machine

open Sys2Proof.Safety

/-! ### The halt check (R121) -/

theorem halted_of_latched {s : State} (hp : s.cfg.errorPolicy = .halt) (he : s.err.kind ≠ .none) : s.halted = true := by
  simp [State.halted, hp, he]

theorem halted_of_permissive {s : State} (hp : s.cfg.errorPolicy = .permissive) : s.halted = false := by
  simp [State.halted, hp]

/-- Settles O6, by the two conditions of `halted`. -/
theorem haltedStepChangesNothing : Obligations.HaltedStepChangesNothing := fun _ =>
  ⟨fun hp he => step_of_halted (halted_of_latched hp he), halted_of_permissive⟩

/-! ### The key-wait poll (R122) -/

theorem lowestKey_eq_some {keys : Word} {k : Nat} (hk : k < 16) (hdown : keys.getLsbD k = true)
    (hlow : ∀ j < k, keys.getLsbD j = false) : lowestKey keys = some k :=
  List.find?_range_eq_some.mpr ⟨hdown, List.mem_range.mpr hk, fun j hj => by rw [hlow j hj]; rfl⟩

theorem State.keyWaitPoll_of_no_key {s : State} (h : s.keys = 0x0000#16) : s.keyWaitPoll = s := by
  rw [State.keyWaitPoll, lowestKey_none.mpr h]

theorem State.keyWaitPoll_of_lowestKey {s : State} {k : Nat} (h : lowestKey s.keys = some k) :
    s.keyWaitPoll = { s.setReg s.waitX (BitVec.ofNat 8 k) with wait := false, pc := s.pc + 2#16 } := by
  rw [State.keyWaitPoll, h]
  rfl

/-- Settles O7: `lowestKey` finds the key named, and the poll loads it. -/
theorem keyWaitPollTakesTheLowestKey : Obligations.KeyWaitPollTakesTheLowestKey := by
  refine fun s hh hw => ⟨fun h0 => ?_, fun k hk hdown hlow => ?_⟩
  · rw [step_of_waiting hh hw, State.keyWaitPoll_of_no_key h0]
  · have hpoll := State.keyWaitPoll_of_lowestKey (lowestKey_eq_some hk hdown hlow)
    have hreg (r : Reg) := State.getReg_setReg s s.waitX r (BitVec.ofNat 8 k)
    refine ⟨_, (step_of_waiting hh hw).trans (congrArg _ hpoll), ?_, rfl, rfl, rfl, fun r hr => ?_, .of_overlay rfl⟩
    · refine (congrArg BitVec.toNat ((hreg s.waitX).trans (if_pos rfl))).trans ?_
      rw [BitVec.toNat_ofNat, Nat.mod_eq_of_lt (by omega)]
    · exact (hreg r).trans (if_neg hr)

/-- Settles O37: the state after the start is a waiting one, and its next step is the poll of O7. -/
theorem keyWaitStartsAndCompletes : Obligations.KeyWaitStartsAndCompletes := by
  intro x s
  have hpoll (hh : s.halted = false) := keyWaitPollTakesTheLowestKey { s with wait := true, waitX := x } hh rfl
  refine ⟨decode_encode (i := .ldVxK x) rfl, _, rfl, rfl, rfl, rfl, .of_overlay rfl, fun k hh hk hdown hlow => ?_,
    fun hh => (hpoll hh).1⟩
  obtain ⟨u, hu, hreg, hwait, -, hpc, -⟩ := (hpoll hh).2 k hk hdown hlow
  exact ⟨u, hu, hreg, hwait, hpc⟩

/-! ### The entry into an error (R126, R127) -/

theorem State.takeError_of_halt {s : State} (h : s.cfg.errorPolicy = .halt) (k : ErrorKind) (a w : Word) :
    s.takeError k a w = { s with err := ⟨k, a, w⟩ } := by
  rw [State.takeError, h]

theorem State.takeError_of_permissive {s : State} (h : s.cfg.errorPolicy = .permissive) (k : ErrorKind) (a w : Word) :
    s.takeError k a w = { s with err := ⟨k, a, w⟩, pc := s.pc + 2#16 } := by
  rw [State.takeError, h]
  rfl

theorem errorTaken_takeError (s : State) (k : ErrorKind) (a w : Word) : ErrorTaken k a w s (s.takeError k a w) :=
  ⟨State.takeError_err s k a w, fun h => by rw [State.takeError_of_halt h], fun h => by rw [State.takeError_of_permissive h],
    onlyChanges_takeError s k a w⟩

/-- Settles O10: the latch just written halts the machine. -/
theorem errorUnderHaltWritesOnlyErr : Obligations.ErrorUnderHaltWritesOnlyErr := by
  intro s k a w hp hk
  have hhalted : (s.takeError k a w).halted = true :=
    halted_of_latched (by rwa [State.takeError_cfg]) (by rwa [State.takeError_err])
  exact ⟨_, rfl, State.takeError_of_halt hp k a w, hhalted, step_of_halted hhalted⟩

/-- Settles O11: under this policy no state is halted, so the next step polls or executes. -/
theorem errorUnderPermissiveMovesOn : Obligations.ErrorUnderPermissiveMovesOn := by
  intro s k a w hp
  have hrunning : (s.takeError k a w).halted = false := halted_of_permissive (by rwa [State.takeError_cfg])
  exact ⟨_, rfl, State.takeError_of_permissive hp k a w, hrunning, step_of_waiting hrunning,
    fun _ _ hw hf hd => step_of_decode_ok hrunning hw hf hd⟩

/-! ### Fetch, decode and execute (R120, R123 to R125) -/

/-- The byte at the lower address is the high one (spec/20_memory.md R64). -/
theorem toNat_wordOfBytes (hi lo : Byte) : (wordOfBytes hi lo).toNat = hi.toNat * 256 + lo.toNat := by
  rw [wordOfBytes, BitVec.toNat_append, ← Nat.shiftLeft_add_eq_or_of_lt lo.isLt, Nat.shiftLeft_eq]

theorem State.fetch_of_lt_pc {s : State} (h : 0xFFE < s.pc.toNat) : s.fetch = .error (max s.pc.toNat 0x1000) :=
  s.fetch_eq.trans (if_neg (by omega))

/-- Settles O8, by the two cases of a fetch. -/
theorem fetchIsBigEndianAndBounded : Obligations.FetchIsBigEndianAndBounded := fun s =>
  ⟨fun h => ⟨_, State.fetch_of_pc_le h, toNat_wordOfBytes _ _⟩, fun h =>
    ⟨State.fetch_of_lt_pc h, fun hh hw =>
      ⟨_, step_of_fetch_error hh hw (State.fetch_of_lt_pc h), errorTaken_takeError s _ _ _⟩⟩⟩

/-- Settles O9, by the error of the decode. -/
theorem undecodableWordTakesDecodeError : Obligations.UndecodableWordTakesDecodeError := fun s w hh hw hf hd =>
  ⟨_, step_of_decode_error hh hw hf hd, errorTaken_takeError s .decodeError s.pc w⟩

/-- Settles O5: the fetch succeeds, and its word is that of the two bytes. -/
theorem stepRunsTheDecodedInstruction : Obligations.StepRunsTheDecodedInstruction := fun _ _ hh hw hpc hd =>
  step_of_decode_ok hh hw (State.fetch_of_pc_le hpc) hd

/-- Settles O14: a step outside `exec` answers a next state in each of its cases, and `exec` does by `exec_answers`. -/
theorem stepAlwaysAnswersANextState : Obligations.StepAlwaysAnswersANextState := by
  intro s
  obtain ⟨_, hx⟩ | ⟨_, _, hx⟩ | ⟨_, _, a, _, hx⟩ | ⟨_, _, w, e, _, _, hx⟩ | ⟨_, _, w, i, _, _, hx⟩ := step_cases s
  case inr.inr.inr.inr =>
    obtain ⟨t, ht, -⟩ := exec_answers s i
    exact ⟨t, hx.trans ht⟩
  all_goals exact ⟨_, hx⟩

/-! ### The draws of `RND` (R129) -/

theorem draws_mem_partsWritten {c : Config} {i : Instr} : .draws ∈ partsWritten c i ↔ ∃ x nn, i = .rnd x nn := by
  cases i <;> simp [partsWritten] <;> split <;> simp

/-- What one instruction does to the draw count. -/
theorem exec_draws {i : Instr} {s t : State} (h : exec i s = .next t) :
    (t.draws = s.draws + 1 ∧ ∃ x nn, i = .rnd x nn) ∨ (t.draws = s.draws ∧ ¬ ∃ x nn, i = .rnd x nn) := by
  by_cases hi : ∃ x nn, i = .rnd x nn
  · refine .inl ⟨?_, hi⟩
    obtain ⟨x, nn, rfl⟩ := hi
    obtain rfl := Host.Outcome.next.inj h
    rfl
  · exact .inr ⟨exec_same h (mt draws_mem_partsWritten.mp hi) (by decide), hi⟩

/-- Settles O27, by the cases of a step: only the execution of `RND` draws, and in each of the other cases some part of
"running, and its word decodes to `RND`" fails. -/
theorem onlyRndTakesADraw : Obligations.OnlyRndTakesADraw := by
  intro s t h
  obtain ⟨hh, hx⟩ | ⟨_, hw, hx⟩ | ⟨_, _, a, hf, hx⟩ | ⟨_, _, w, e, hf, hd, hx⟩ | ⟨hh, hw, w, i, hf, hd, hx⟩ :=
    step_cases s
  all_goals have ht := hx.symm.trans h
  · obtain rfl := Host.Outcome.next.inj ht
    exact .inr ⟨rfl, fun ⟨hrun, _⟩ => absurd (hh.symm.trans hrun) nofun⟩
  · obtain rfl := Host.Outcome.next.inj ht
    exact .inr ⟨onlyChanges_keyWaitPoll s .draws (by decide), fun ⟨_, hidle, _⟩ => absurd (hw.symm.trans hidle) nofun⟩
  · obtain rfl := Host.Outcome.next.inj ht
    exact .inr ⟨State.takeError_draws .., fun ⟨_, _, _, _, _, hok, _⟩ => absurd (hf.symm.trans hok) nofun⟩
  · obtain rfl := Host.Outcome.next.inj ht
    refine .inr ⟨State.takeError_draws .., fun ⟨_, _, _, _, _, hok, hrnd⟩ => ?_⟩
    cases hf.symm.trans hok
    exact absurd (hd.symm.trans hrnd) nofun
  · obtain ⟨hdraws, x, nn, rfl⟩ | ⟨hdraws, hne⟩ := exec_draws ht
    · exact .inl ⟨hdraws, hh, hw, w, x, nn, hf, hd⟩
    · refine .inr ⟨hdraws, fun ⟨_, _, _, x, nn, hok, hrnd⟩ => ?_⟩
      cases hf.symm.trans hok
      exact hne ⟨x, nn, Except.ok.inj (hd.symm.trans hrnd)⟩

end Sys2Proof.Machine
end

section
/-! PROOFS. The control flow instructions (spec/41_control_flow.md R140 to R149): jumps, skips, the calls and returns over
the return stack, and the two errors of a stack that is empty or full. -/

namespace Sys2Proof.Machine

open Sys2Proof.Safety

/-! ### An error of the table, and instructions in sequence -/

/-- An instruction that raises takes the error that the table names for it (R212 to R216). -/
theorem Raises.errorTaken {i : Instr} {s : State} {k : ErrorKind} {a : Word} (h : Raises i s)
    (he : errorOf i s = some (k, a)) : ∃ t, exec i s = .next t ∧ ErrorTaken k a (encode i) s t := by
  obtain ⟨k', a', he', hx⟩ := h
  cases he.symm.trans he'
  exact ⟨_, hx, errorTaken_takeError s k a (encode i)⟩

theorem execAll_cons_of_next {i : Instr} {s t : State} (h : exec i s = .next t) (is : List Instr) :
    execAll (i :: is) s = execAll is t := by
  rw [execAll, h]

/-! ### Calls and returns (R141, R143) -/

theorem toNat_addrOperand (nnn : Addr12) : (addrOperand nnn).toNat = nnn.toNat :=
  BitVec.toNat_setWidth_of_le (by decide)

/-- Settles O16, by whether the stack is empty. -/
theorem retPopsTheStack : Obligations.RetPopsTheStack := fun _ =>
  ⟨decode_encode (i := .ret) rfl, fun h => ⟨_, exec_ret_of_ne_zero h, rfl, rfl, rfl, .of_overlay rfl⟩,
    fun h => (raises_ret h).errorTaken (if_pos h)⟩

/-- Settles O17, by whether the stack is full. -/
theorem callPushesTheReturnAddress : Obligations.CallPushesTheReturnAddress := fun nnn _ =>
  ⟨decode_encode (i := .call nnn) rfl, fun h =>
    ⟨_, exec_call_of_lt nnn h, rfl, Vector.getElem_set_self h, fun j hj => Vector.getElem_set_ne h j.isLt hj.symm,
      toNat_addrOperand nnn, .of_overlay rfl⟩,
    fun h => (raises_call nnn h).errorTaken (if_pos h)⟩

/-- Calls that the stack has room for complete, and leave the entries that were in use as they are. -/
theorem execAll_calls (targets : List Addr12) {s : State} (hroom : s.sp.val + targets.length ≤ 16) :
    ∃ t, execAll (targets.map .call) s = .next t ∧ t.sp.val = s.sp.val + targets.length ∧
      (∀ j (hj : j < s.sp.val), t.stack[j]'(by omega) = s.stack[j]'(by omega)) ∧ OnlyChanges [.pc, .stack] s t := by
  induction targets generalizing s with
  | nil => exact ⟨s, rfl, rfl, fun _ _ => rfl, .of_overlay rfl⟩
  | cons nnn targets ih =>
    rw [List.length_cons] at hroom
    obtain ⟨-, hpush, -⟩ := callPushesTheReturnAddress nnn s
    obtain ⟨u, hcall, hsp, -, hkept, -, hframe⟩ := hpush (by omega)
    obtain ⟨t, ht, hsp', hlive, hframe'⟩ := ih (s := u) (by omega)
    refine ⟨t, (execAll_cons_of_next hcall _).trans ht, ?_, fun j hj => ?_,
      hframe.trans hframe' (List.Subset.refl _) (List.Subset.refl _)⟩
    · rw [hsp', hsp, List.length_cons]
      omega
    · exact (hlive j (by omega)).trans (hkept ⟨j, by omega⟩ (Nat.ne_of_lt hj))

/-- `n + 1` returns that leave `d` entries in use: entry `d` is where they come back to. -/
theorem execAll_rets (n : Nat) {d : Nat} {s : State} (h : s.sp.val = d + (n + 1)) :
    execAll (List.replicate (n + 1) .ret) s = .next { s with
      sp := ⟨d, by omega⟩, pc := s.stack[d]'(by omega) } := by
  induction n generalizing s with
  | zero =>
    rw [List.replicate_succ, execAll_cons_of_next (exec_ret_of_ne_zero (by omega))]
    simp [execAll, h]
  | succ n ih =>
    rw [List.replicate_succ, execAll_cons_of_next (exec_ret_of_ne_zero (by omega)), ih]
    exact Nat.sub_eq_of_eq_add h

/-- Settles O18: the first call pushes the address after it, the calls after it leave that entry alone, and the last return
pops it. -/
theorem nestedCallsReturnToTheFirst : Obligations.NestedCallsReturnToTheFirst := by
  intro targets s hne hroom
  obtain ⟨nnn, rest, rfl⟩ := List.exists_cons_of_ne_nil hne
  rw [List.length_cons] at hroom
  obtain ⟨-, hpush, -⟩ := callPushesTheReturnAddress nnn s
  obtain ⟨u, hcall, hsp, htop, -, -, hframe⟩ := hpush (by omega)
  obtain ⟨t, ht, hsp', hlive, hframe'⟩ := execAll_calls rest (s := u) (by omega)
  have hdepth : t.sp.val = s.sp.val + (rest.length + 1) := by omega
  have hentry := (hlive s.sp.val (by omega)).trans htop
  have hcalls : OnlyChanges [.pc, .stack] s t := hframe.trans hframe' (List.Subset.refl _) (List.Subset.refl _)
  have hrets := execAll_rets rest.length hdepth
  exact ⟨t, _, (execAll_cons_of_next hcall _).trans ht, hdepth, hrets, rfl, hentry,
    hcalls.trans (.of_overlay rfl) (List.Subset.refl _) (List.Subset.refl _)⟩

/-! ### Jumps (R142, R148) -/

/-- The largest sum, 0xFFF + 0xFF, fits in 16 bits. -/
theorem State.toNat_offsetTarget (s : State) (nnn : Addr12) :
    (s.offsetTarget nnn).toNat = nnn.toNat + (s.getReg 0x0#4).toNat := by
  rw [State.offsetTarget, BitVec.toNat_ofNat, Nat.mod_eq_of_lt (by omega)]

/-- Settles O19, by the numbers that the two targets are. -/
theorem jumpsWriteTheTarget : Obligations.JumpsWriteTheTarget := fun nnn s =>
  ⟨decode_encode (i := .jp nnn) rfl, decode_encode (i := .jpV0 nnn) rfl,
    ⟨_, rfl, toNat_addrOperand nnn, .of_overlay rfl⟩, ⟨_, rfl, s.toNat_offsetTarget nnn, .of_overlay rfl⟩⟩

/-! ### Skips (R144 to R147, R149) -/

/-- A skip writes `pc` alone, by 4 or by 2 as the condition that its test decides. -/
theorem exec_moves_pc_of_skipIf {i : Instr} {s : State} {c : Bool} {p : Prop} [Decidable p]
    (hx : exec i s = skipIf c s) (hc : c = true ↔ p) :
    ∃ t, exec i s = .next t ∧ t.pc = (if p then s.pc + 4#16 else s.pc + 2#16) ∧ OnlyChanges [.pc] s t :=
  ⟨_, hx.trans (skipIf_eq c s), if_congr hc rfl rfl, .of_overlay rfl⟩

theorem decode_class5 (x y : Reg) (n : BitVec 4) :
    decode (0x5#4 ++ x ++ y ++ n) = if n = 0x0#4 then .ok (.seReg x y) else .error .decodeError := by
  simp [decode]

theorem decode_class9 (x y : Reg) (n : BitVec 4) :
    decode (0x9#4 ++ x ++ y ++ n) = if n = 0x0#4 then .ok (.sneReg x y) else .error .decodeError := by
  simp [decode]

/-- Settles O20: each of the four is a skip on a comparison. -/
theorem skipsPassOneInstruction : Obligations.SkipsPassOneInstruction := fun x y nn _ =>
  ⟨decode_encode (i := .seImm x nn) rfl, decode_encode (i := .sneImm x nn) rfl, decode_class5 x y, decode_class9 x y,
    exec_moves_pc_of_skipIf rfl beq_iff_eq, exec_moves_pc_of_skipIf rfl bne_iff_ne,
    exec_moves_pc_of_skipIf rfl beq_iff_eq, exec_moves_pc_of_skipIf rfl bne_iff_ne⟩

/-! ### The no-operation (R140) -/

theorem wf_sys {nnn : Addr12} (hcls : nnn ≠ 0x0E0#12) (hret : nnn ≠ 0x0EE#12) : (Instr.sys nnn).wf = true := by
  simp [Instr.wf, hcls, hret]

/-- Settles O15: `SYS` is well formed with every address but those of `CLS` and `RET`. -/
theorem sysIsANoOperation : Obligations.SysIsANoOperation := fun nnn _ =>
  ⟨fun hcls hret => decode_encode (i := .sys nnn) (wf_sys hcls hret), rfl⟩

end Sys2Proof.Machine
end

section
/-! PROOFS. Registers, arithmetic, logic, shifts and the random byte (spec/42_alu.md R160 to R173): what each instruction
writes, the flag that is written last, and what stays as it was. -/

namespace Sys2Proof.Machine

open Sys2Proof.Safety

/-! ### One register written (R160 to R162) -/

theorem State.getReg_setReg_self (s : State) (x : Reg) (b : Byte) : (s.setReg x b).getReg x = b :=
  (s.getReg_setReg x x b).trans (if_pos rfl)

theorem State.getReg_setReg_of_ne {x r : Reg} (h : r ≠ x) (s : State) (b : Byte) :
    (s.setReg x b).getReg r = s.getReg r :=
  (s.getReg_setReg x r b).trans (if_neg h)

/-- An instruction whose answer is one register written and `pc` moved on. -/
theorem exec_writes_of_setReg {i : Instr} {s : State} {x : Reg} {b : Byte}
    (hx : exec i s = .next (s.setReg x b).advance) :
    ∃ t, exec i s = .next t ∧ t.getReg x = b ∧ (∀ r, r ≠ x → t.getReg r = s.getReg r) ∧ t.pc = s.pc + 2#16 ∧
      OnlyChanges [.pc, .regs] s t :=
  ⟨_, hx, s.getReg_setReg_self x b, fun _ hr => State.getReg_setReg_of_ne hr s b, rfl, .of_overlay rfl⟩

/-- Settles O21: each of the three writes one register; the sum of bytes is the sum mod 256. -/
theorem loadsAndAddImmediateWriteOneRegister : Obligations.LoadsAndAddImmediateWriteOneRegister := by
  intro x y nn s
  obtain ⟨t, ht, hsum, hframe⟩ := exec_writes_of_setReg (i := .addImm x nn) (s := s) rfl
  have hadd : (t.getReg x).toNat = ((s.getReg x).toNat + nn.toNat) % 256 := by rw [hsum, BitVec.toNat_add]
  exact ⟨decode_encode (i := .ldImm x nn) rfl, decode_encode (i := .addImm x nn) rfl,
    decode_encode (i := .ldReg x y) rfl, exec_writes_of_setReg rfl, ⟨t, ht, hadd, hframe⟩, exec_writes_of_setReg rfl⟩

/-! ### Logic (R163 to R165) -/

/-- An instruction whose answer is a logic result written and `pc` moved on. -/
theorem exec_writes_of_setLogic {i : Instr} {s : State} {x : Reg} {b : Byte}
    (hx : exec i s = .next (s.setLogic x b).advance) :
    ∃ t, exec i s = .next t ∧
      (∀ r, t.getReg r = if s.cfg.logicResetsVF = true ∧ r = vf then 0x00#8 else if r = x then b else s.getReg r) ∧
      t.pc = s.pc + 2#16 ∧ OnlyChanges [.pc, .regs] s t := by
  have hframe : OnlyChanges [.pc, .regs] s (s.setLogic x b).advance := by
    rw [State.setLogic_eq]
    exact .of_overlay rfl
  exact ⟨_, hx, s.getReg_setLogic x b, congrArg (· + 2#16) (s.setLogic_pc x b), hframe⟩

/-- Settles O22: each of the three writes a logic result. -/
theorem logicWritesTheResult : Obligations.LogicWritesTheResult := fun x y _ =>
  ⟨decode_encode (i := .orReg x y) rfl, decode_encode (i := .andReg x y) rfl, decode_encode (i := .xorReg x y) rfl,
    exec_writes_of_setLogic rfl, exec_writes_of_setLogic rfl, exec_writes_of_setLogic rfl⟩

/-! ### A result and then the flag (R173) -/

/-- An instruction whose answer is a result, the flag over it, and `pc` moved on; the result as a number. -/
theorem exec_writes_of_setWithFlag {i : Instr} {s : State} {x : Reg} {b : Byte} {f : Bool} {n : Nat}
    (hx : exec i s = .next (s.setWithFlag x b f).advance) (hb : b.toNat = n) :
    ∃ t, exec i s = .next t ∧ (x ≠ vf → (t.getReg x).toNat = n) ∧ t.getReg vf = flagByte f ∧
      (∀ r, r ≠ x → r ≠ vf → t.getReg r = s.getReg r) ∧ t.pc = s.pc + 2#16 ∧ OnlyChanges [.pc, .regs] s t := by
  have hreg (r : Reg) := s.getReg_setWithFlag x b f r
  refine ⟨_, hx, fun hne => ?_, (hreg vf).trans (if_pos rfl), fun r hr hf => ?_, rfl, .of_overlay rfl⟩
  · rw [State.getReg_advance, hreg, if_neg hne, if_pos rfl, hb]
  · rw [State.getReg_advance, hreg, if_neg hf, if_neg hr]

theorem flagByte_decide (p : Prop) [Decidable p] : flagByte (decide p) = if p then 0x01#8 else 0x00#8 :=
  if_congr decide_eq_true_iff rfl rfl

/-- The flag as the condition that it tells. -/
theorem exec_writes_of_condition {i : Instr} {s : State} {x : Reg} {b : Byte} {n : Nat} {p : Prop} [Decidable p]
    (hx : exec i s = .next (s.setWithFlag x b (decide p)).advance) (hb : b.toNat = n) :
    ∃ t, exec i s = .next t ∧ (x ≠ vf → (t.getReg x).toNat = n) ∧
      t.getReg vf = (if p then 0x01#8 else 0x00#8) ∧
      (∀ r, r ≠ x → r ≠ vf → t.getReg r = s.getReg r) ∧ t.pc = s.pc + 2#16 ∧ OnlyChanges [.pc, .regs] s t :=
  flagByte_decide p ▸ exec_writes_of_setWithFlag hx hb

/-! ### Addition and subtraction (R166, R167, R169) -/

/-- Settles O23: the flag is the carry out of the sum. -/
theorem addRegistersSetsCarry : Obligations.AddRegistersSetsCarry := fun x y _ =>
  ⟨decode_encode (i := .addReg x y) rfl, exec_writes_of_condition rfl (BitVec.toNat_add ..)⟩

theorem toNat_byte_sub (a b : Byte) : (a - b).toNat = (a.toNat + 256 - b.toNat) % 256 := by
  rw [BitVec.toNat_sub]
  omega

/-- Settles O24: the flag is that no borrow occurs. -/
theorem subtractionsSetNotBorrow : Obligations.SubtractionsSetNotBorrow := fun x y _ =>
  ⟨decode_encode (i := .sub x y) rfl, decode_encode (i := .subn x y) rfl,
    exec_writes_of_condition rfl (toNat_byte_sub ..), exec_writes_of_condition rfl (toNat_byte_sub ..)⟩

/-! ### Shifts (R168, R170) -/

theorem State.shiftOperand_eq (s : State) (x y : Reg) :
    s.shiftOperand x y = if s.cfg.shiftSrc = .vx then s.getReg x else s.getReg y := by
  unfold State.shiftOperand
  cases s.cfg.shiftSrc <;> rfl

theorem toNat_flagByte (f : Bool) : (flagByte f).toNat = f.toNat := by
  cases f <;> rfl

theorem toNat_shiftedOutRight (b : Byte) : (shiftedOutRight b).toNat = b.toNat % 2 := by
  rw [shiftedOutRight, BitVec.getLsbD, Nat.toNat_testBit, pow_zero, Nat.div_one]

theorem toNat_shiftedOutLeft (b : Byte) : (shiftedOutLeft b).toNat = b.toNat / 128 := by
  rw [shiftedOutLeft, BitVec.getLsbD, Nat.toNat_testBit]
  omega

theorem toNat_shiftRight_one (b : Byte) : (b >>> 1).toNat = b.toNat / 2 :=
  (BitVec.toNat_ushiftRight b 1).trans (Nat.shiftRight_eq_div_pow b.toNat 1)

theorem toNat_shiftLeft_one (b : Byte) : (b <<< 1).toNat = 2 * b.toNat % 256 := by
  rw [BitVec.toNat_shiftLeft, Nat.shiftLeft_eq, pow_one, Nat.mul_comm]

/-- The flag as the bit shifted out. -/
theorem exec_writes_of_shift {i : Instr} {s : State} {x : Reg} {b : Byte} {f : Bool} {n m : Nat}
    (hx : exec i s = .next (s.setWithFlag x b f).advance) (hb : b.toNat = n) (hf : f.toNat = m) :
    ∃ t, exec i s = .next t ∧ (x ≠ vf → (t.getReg x).toNat = n) ∧ (t.getReg vf).toNat = m ∧
      (∀ r, r ≠ x → r ≠ vf → t.getReg r = s.getReg r) ∧ t.pc = s.pc + 2#16 ∧ OnlyChanges [.pc, .regs] s t := by
  obtain ⟨t, ht, hres, hflag, hframe⟩ := exec_writes_of_setWithFlag hx hb
  exact ⟨t, ht, hres, by rw [hflag, toNat_flagByte, hf], hframe⟩

/-- Settles O25: the operand is the one the quirk chooses, and the flag is the bit shifted out of it. -/
theorem shiftsMoveByOne : Obligations.ShiftsMoveByOne := by
  intro x y s b hb
  obtain rfl := hb.trans (s.shiftOperand_eq x y).symm
  exact ⟨decode_encode (i := .shr x y) rfl, decode_encode (i := .shl x y) rfl,
    exec_writes_of_shift rfl (toNat_shiftRight_one _) (toNat_shiftedOutRight _),
    exec_writes_of_shift rfl (toNat_shiftLeft_one _) (toNat_shiftedOutLeft _)⟩

/-! ### The random byte (R171) -/

/-- Settles O26: the answer drawn goes through the mask into the register; the mask clears whatever byte it is put on. -/
theorem rndMasksAFreshDraw : Obligations.RndMasksAFreshDraw := by
  intro x nn s
  have hreg : (s.drawByte.2.setReg x (s.drawByte.1 &&& nn)).advance.getReg x = Config.randByte s.draws &&& nn :=
    s.drawByte.2.getReg_setReg_self x _
  refine ⟨decode_encode (i := .rnd x nn) rfl, _, rfl, hreg, rfl, fun k hk => ?_, fun r hr => ?_, rfl, .of_overlay rfl⟩
  · rw [hreg, BitVec.getLsbD_and, hk, Bool.and_false]
  · exact State.getReg_setReg_of_ne hr s.drawByte.2 _

end Sys2Proof.Machine
end

section
/-! PROOFS. The index register and the memory instructions (spec/43_index_memory.md R180 to R186): the three writes of `I`,
the decimal digits, and the two block transfers. -/

namespace Sys2Proof.Machine

open Sys2Proof.Safety

/-! ### Writes of `I` (R180 to R182) -/

theorem State.toNat_setI_i (s : State) (a : Word) : (s.setI a).i.toNat = a.toNat % 4096 := by
  rw [State.setI_i, BitVec.toNat_and]
  exact Nat.and_two_pow_sub_one_eq_mod a.toNat 12

/-- An instruction whose answer is `I` written and `pc` moved on. -/
theorem exec_writes_of_setI {i : Instr} {s : State} {a : Word} {n : Nat}
    (hx : exec i s = .next (s.setI a).advance) (ha : a.toNat % 4096 = n) :
    ∃ t, exec i s = .next t ∧ t.i.toNat = n ∧ t.pc = s.pc + 2#16 ∧ OnlyChanges [.pc, .index] s t :=
  ⟨_, hx, (s.toNat_setI_i a).trans ha, rfl, .of_overlay rfl⟩

theorem State.toNat_lowNibble (s : State) (x : Reg) : (s.lowNibble x).toNat = (s.getReg x).toNat % 16 := by
  rw [State.lowNibble, BitVec.extractLsb'_toNat, Nat.shiftRight_zero]

/-- The last digit's sprite ends below 0x200, so neither 16 bits nor the 12 of `I` cut the address of any. -/
theorem State.toNat_fontAddr {s : State} (h : s.cfg.wf = true) (d : BitVec 4) :
    (s.fontAddr d).toNat = s.cfg.fontBase + 5 * d.toNat ∧ (s.fontAddr d).toNat < 4096 := by
  have hfont : s.cfg.fontBase + 79 ≤ 0x1FF := of_decide_eq_true h
  have haddr : (s.fontAddr d).toNat = s.cfg.fontBase + 5 * d.toNat := by
    rw [State.fontAddr, BitVec.toNat_ofNat, Nat.mod_eq_of_lt (by omega)]
  exact ⟨haddr, by omega⟩

/-- Settles O28: each of the three writes `I`; the mask cuts the sum alone. -/
theorem indexInstructionsWriteI : Obligations.IndexInstructionsWriteI := by
  intro x nnn s
  have hsum : (s.i + (s.getReg x).setWidth 16).toNat % 4096 = (s.i.toNat + (s.getReg x).toNat) % 4096 := by
    rw [BitVec.toNat_add, BitVec.toNat_setWidth_of_le (by decide)]
    omega
  refine ⟨decode_encode (i := .ldI nnn) rfl, decode_encode (i := .addIVx x) rfl, decode_encode (i := .ldFVx x) rfl,
    exec_writes_of_setI rfl ?_, exec_writes_of_setI rfl hsum, fun hwf => exec_writes_of_setI rfl ?_⟩
  · rw [toNat_addrOperand, Nat.mod_eq_of_lt nnn.isLt]
  · obtain ⟨haddr, hlt⟩ := State.toNat_fontAddr hwf (s.lowNibble x)
    rw [Nat.mod_eq_of_lt hlt, haddr, State.toNat_lowNibble]

/-! ### Range checks (R183 to R185) -/

/-- Where the table names an error, the instruction takes it (R212 to R216). -/
theorem errorTaken_of_errorOf {i : Instr} {s : State} {k : ErrorKind} {a : Word} (he : errorOf i s = some (k, a)) :
    ∃ t, exec i s = .next t ∧ ErrorTaken k a (encode i) s t :=
  ((errorOf_none_or_raises s i).resolve_left (by rw [he]; nofun)).errorTaken he

theorem exec_ldBVx_of_inBounds {s : State} {x : Reg} (h : s.i.toNat + 2 ≤ 0xFFF) :
    exec (.ldBVx x) s = .next (s.writeBytes s.base (bcdDigits (s.getReg x))).advance :=
  (exec_ldBVx_outcome x s).elim (·.2) fun hr => absurd (if_neg (Nat.not_lt.mpr h)) hr.errorOf_ne_none

theorem exec_ldRegs_of_inBounds {s : State} {x : Reg} (h : s.i.toNat + x.toNat ≤ 0xFFF) :
    exec (.ldRegs x) s =
      .next ((s.setRegBlock 0 ((List.range (blockSize x)).map fun j => s.readByte (s.base + j))).bumpIndex
        (blockSize x)).advance :=
  (exec_ldRegs_outcome x s).elim (·.2) fun hr => absurd (if_neg (Nat.not_lt.mpr h)) hr.errorOf_ne_none

/-! ### Decimal digits (R183) -/

/-- What a block write leaves at its `j`-th address (spec/20_memory.md R63). -/
theorem State.readByte_writeBytes_add {s : State} (hm : MemoryCanonical s) {a j : Nat} {bs : List Byte}
    (hj : j < bs.length) (ha : a + bs.length ≤ 0x1000) : (s.writeBytes a bs).readByte (a + j) = bs.getD j 0x00#8 := by
  rw [State.readByte_writeBytes hm a bs ha, if_pos (by omega), Nat.add_sub_cancel_left]

theorem toNat_ofNat_of_le_byte {n : Nat} {v : Byte} (h : n ≤ v.toNat) : (BitVec.ofNat 8 n).toNat = n := by
  rw [BitVec.toNat_ofNat, Nat.mod_eq_of_lt (by omega)]

/-- Settles O29: the block write of the three digits, each no larger than the byte they come from. -/
theorem bcdStoresThreeDigits : Obligations.BcdStoresThreeDigits := by
  intro x s hm
  refine ⟨decode_encode (i := .ldBVx x) rfl, fun hin => ?_, fun hout => errorTaken_of_errorOf (if_pos hout)⟩
  have hx := exec_ldBVx_of_inBounds (x := x) hin
  obtain ⟨hparts, -, hbytes⟩ := frameHolds (.ldBVx x) s _ (if_neg (Nat.not_lt.mpr hin)) hx
  have hdigit (j : Nat) (hj : j < 3) := State.readByte_writeBytes_add hm (bs := bcdDigits (s.getReg x)) hj
    (show s.i.toNat + 3 ≤ 0x1000 by omega)
  refine ⟨_, hx, ?_, ?_, ?_, hbytes, congrArg (· + 2#16) (State.writeBytes_pc ..), hparts⟩
  · exact (congrArg BitVec.toNat (hdigit 0 (by decide))).trans (toNat_ofNat_of_le_byte (Nat.div_le_self _ 100))
  · exact (congrArg BitVec.toNat (hdigit 1 (by decide))).trans
      (toNat_ofNat_of_le_byte ((Nat.mod_le _ 10).trans (Nat.div_le_self _ 10)))
  · exact (congrArg BitVec.toNat (hdigit 2 (by decide))).trans (toNat_ofNat_of_le_byte (Nat.mod_le _ 10))

/-! ### Block transfers (R184 to R186) -/

/-- `I` and `pc` after the registers or the bytes of a block are written: `I` moves only under the quirk (R186). -/
theorem blockTransfer_moves {p : Part} {s u : State} (h : OnlyChanges [p] s u) (hp : p ∈ [.regs, .memory]) (n : Nat) :
    (s.cfg.memIncrI = false → (u.bumpIndex n).advance.i = s.i) ∧
    (s.cfg.memIncrI = true → (u.bumpIndex n).advance.i.toNat = (s.i.toNat + n) % 4096) ∧
    (u.bumpIndex n).advance.pc = s.pc + 2#16 ∧ OnlyChanges [.pc, p, .index] s (u.bumpIndex n).advance := by
  have hother (q : Part) (hq : q ∉ [.regs, .memory]) : q.Same s u :=
    h q fun hin => hq (List.mem_singleton.mp hin ▸ hp)
  have hcfg : u.cfg = s.cfg := hother .config (by decide)
  have hi : u.i = s.i := hother .index (by decide)
  have hpc : u.pc = s.pc := hother .pc (by decide)
  refine ⟨fun hq => ?_, fun hq => ?_, by simp [hpc], ?_⟩
  · simp [State.bumpIndex_i, hcfg, hq, hi]
  · have hbump : u.bumpIndex n = u.setI (u.i + BitVec.ofNat 16 n) := if_pos (hcfg ▸ hq)
    rw [State.advance_i, hbump, State.toNat_setI_i, BitVec.toNat_add, BitVec.toNat_ofNat, hi]
    omega
  · refine (h.bumpIndex_advance hcfg n).trans (.of_overlay (w := []) rfl) ?_ (List.nil_subset _)
    split <;> simp

/-- Settles O30: the block write of the registers, then the move of `I`. -/
theorem registerDumpStoresTheBlock : Obligations.RegisterDumpStoresTheBlock := by
  intro x s hm
  refine ⟨decode_encode (i := .stRegs x) rfl, fun hin => ?_, fun hout => errorTaken_of_errorOf (if_pos hout)⟩
  have hx := exec_stRegs_of_inBounds hin
  obtain ⟨-, -, hbytes⟩ := frameHolds (.stRegs x) s _ (errorOf_stRegs_eq_none.mpr hin) hx
  have hstored (j : Reg) (hj : j.toNat < blockSize x) :=
    State.readByte_writeBytes_regBlock hm hj (show s.i.toNat + blockSize x ≤ 0x1000 from Nat.succ_le_succ hin)
  refine ⟨_, hx, fun j hj => ?_, hbytes, blockTransfer_moves (onlyChanges_writeBytes _ _ _) (by decide) (blockSize x)⟩
  rw [State.readByte_advance, State.readByte_bumpIndex, State.base, hstored j (Nat.lt_succ_of_le hj),
    BitVec.ofNat_toNat, BitVec.setWidth_eq]

/-- The registers after `V[0]..V[X]` are loaded (R185). -/
theorem State.getReg_setRegBlock_range (s : State) (x j : Reg) (f : Nat → Byte) :
    (s.setRegBlock 0 ((List.range (blockSize x)).map f)).getReg j =
      if j.toNat ≤ x.toNat then f j.toNat else s.getReg j := by
  have hlen : ((List.range (blockSize x)).map f).length = x.toNat + 1 := by simp [blockSize]
  rw [State.getReg_setRegBlock _ _ _ (by omega)]
  by_cases hj : j.toNat ≤ x.toNat
  · rw [if_pos (by omega), if_pos hj]
    simp [blockSize, Nat.lt_succ_of_le hj]
  · rw [if_neg (by omega), if_neg hj]

/-- Settles O31: the load of the registers from the block, then the move of `I`. -/
theorem registerLoadReadsTheBlock : Obligations.RegisterLoadReadsTheBlock := by
  intro x s
  refine ⟨decode_encode (i := .ldRegs x) rfl, fun hin => ?_, fun hout => errorTaken_of_errorOf (if_pos hout)⟩
  have hreg (j : Reg) := s.getReg_setRegBlock_range x j fun k => s.readByte (s.base + k)
  refine ⟨_, exec_ldRegs_of_inBounds hin, fun j hj => ?_, fun j hj => ?_,
    blockTransfer_moves (onlyChanges_setRegBlock _ _ _) (by decide) (blockSize x)⟩
  · rw [State.getReg_advance, State.getReg_bumpIndex, hreg, if_pos hj, State.base]
  · rw [State.getReg_advance, State.getReg_bumpIndex, hreg, if_neg (by omega)]

end Sys2Proof.Machine
end

section
/-! PROOFS. The display instructions (spec/44_display.md R190 to R192): the clear, which pixels a sprite lands on, the draw
and its collision flag, and the same draw done twice. -/

namespace Sys2Proof.Machine

open Sys2Proof.Safety

/-! ### The clear (R190) -/

/-- Settles O33: the blank display has no lit pixel. -/
theorem clsClearsEveryPixel : Obligations.ClsClearsEveryPixel := fun _ =>
  ⟨decode_encode (i := .cls) rfl, _, rfl, Framebuffer.pixel_blank, rfl, .of_overlay rfl⟩

/-! ### Where a sprite lands (R192) -/

theorem byteCovers_iff {x0 : Nat} {b : Byte} {u : Fin 64} :
    byteCovers x0 b u = true ↔ ∃ c < 8, u = column (x0 + c) ∧ b.getLsbD (7 - c) = true := by
  simp [byteCovers, and_comm]

theorem spriteCovers_iff {x0 y0 : Nat} {bs : List Byte} {u : Fin 64} {w : Fin 32} :
    spriteCovers x0 y0 bs u w = true ↔
      ∃ r, ∃ h : r < bs.length, byteCovers x0 bs[r] u = true ∧ w = row (y0 + r) := by
  induction bs generalizing y0 with
  | nil => simp [spriteCovers]
  | cons b bs ih =>
    rw [spriteCovers, Bool.or_eq_true, Bool.and_eq_true, decide_eq_true_eq, ih]
    constructor
    · rintro (hfirst | ⟨r, hr, hb, hw⟩)
      · exact ⟨0, Nat.succ_pos _, hfirst⟩
      · exact ⟨r + 1, Nat.succ_lt_succ hr, hb, hw.trans (congrArg row (by omega))⟩
    · rintro ⟨_ | r, hr, hb, hw⟩
      · exact .inl ⟨hb, hw⟩
      · exact .inr ⟨r, Nat.lt_of_succ_lt_succ hr, hb, hw.trans (congrArg row (by omega))⟩

/-- Whether `DRW Vx, Vy, N` puts a 1 bit of its sprite on the pixel `(u, w)`. -/
def State.covers (s : State) (x y : Reg) (n : BitVec 4) (u : Fin 64) (w : Fin 32) : Bool :=
  spriteCovers ((s.getReg x).toNat % 64) ((s.getReg y).toNat % 32)
    ((List.range n.toNat).map fun j => s.readByte (s.base + j)) u w

theorem State.covers_iff {s : State} {x y : Reg} {n : BitVec 4} {u : Fin 64} {w : Fin 32} :
    s.covers x y n u w = true ↔ ∃ r c : Nat, r < n.toNat ∧ c < 8 ∧ u.val = ((s.getReg x).toNat % 64 + c) % 64 ∧
      w.val = ((s.getReg y).toNat % 32 + r) % 32 ∧ (s.readByte (s.i.toNat + r)).getLsbD (7 - c) = true := by
  rw [State.covers, spriteCovers_iff]
  constructor
  · rintro ⟨r, hr, hb, hw⟩
    obtain ⟨c, hc, hu, hbit⟩ := byteCovers_iff.mp hb
    exact ⟨r, c, by simpa using hr, hc, congrArg Fin.val hu, congrArg Fin.val hw, by simpa [State.base] using hbit⟩
  · rintro ⟨r, c, hr, hc, hu, hw, hbit⟩
    exact ⟨r, by simpa using hr, byteCovers_iff.mpr ⟨c, hc, Fin.ext hu, by simpa [State.base] using hbit⟩, Fin.ext hw⟩

/-- A sprite lands somewhere exactly when it has a 1 bit: wrapping loses none. -/
theorem State.exists_covers_iff {s : State} {x y : Reg} {n : BitVec 4} :
    (∃ u w, s.covers x y n u w = true) ↔
      ∃ r k : Nat, r < n.toNat ∧ k < 8 ∧ (s.readByte (s.i.toNat + r)).getLsbD k = true := by
  constructor
  · rintro ⟨u, w, hcov⟩
    obtain ⟨r, c, hr, -, -, -, hbit⟩ := State.covers_iff.mp hcov
    exact ⟨r, 7 - c, hr, by omega, hbit⟩
  · rintro ⟨r, k, hr, hk, hbit⟩
    have hk' : 7 - (7 - k) = k := by omega
    exact ⟨column _, row _, State.covers_iff.mpr ⟨r, 7 - k, hr, by omega, rfl, rfl, hk'.symm ▸ hbit⟩⟩

/-! ### The draw and its flag (R191) -/

/-- The state after `DRW Vx, Vy, N` with its sprite within memory. -/
def State.draw (s : State) (x y : Reg) (n : BitVec 4) : State :=
  ({ s with fb := (s.drawn x y n.toNat).1 }.setFlag (s.drawn x y n.toNat).2).advance

theorem exec_drw_of_inBounds {s : State} {x y : Reg} {n : BitVec 4}
    (h : n.toNat = 0 ∨ s.i.toNat + n.toNat - 1 ≤ 0xFFF) : exec (.drw x y n) s = .next (s.draw x y n) :=
  (exec_drw_outcome x y n s).elim (·.2) fun hr => absurd (if_neg (by omega)) hr.errorOf_ne_none

theorem onlyChanges_draw (s : State) (x y : Reg) (n : BitVec 4) : OnlyChanges [.pc, .regs, .display] s (s.draw x y n) :=
  .of_overlay rfl

theorem State.getReg_draw_of_ne {r : Reg} (h : r ≠ vf) (s : State) (x y : Reg) (n : BitVec 4) :
    (s.draw x y n).getReg r = s.getReg r :=
  State.getReg_setReg_of_ne h { s with fb := (s.drawn x y n.toNat).1 } _

/-- The closed form of the draw holds of every `N`: a sprite is too short to come round to its first row. -/
theorem State.drawn_spec (s : State) (x y : Reg) (n : BitVec 4) :
    (∀ u w, (s.drawn x y n.toNat).1.pixel u w = (s.fb.pixel u w ^^ s.covers x y n u w)) ∧
    ((s.drawn x y n.toNat).2 = true ↔ ∃ u w, s.covers x y n u w = true ∧ s.fb.pixel u w = true) := by
  have hlen : ((List.range n.toNat).map fun j => s.readByte (s.base + j)).length ≤ 32 := by
    rw [List.length_map, List.length_range]
    omega
  obtain ⟨hpix, hhit⟩ := blit_spec ((s.getReg x).toNat % 64) ((s.getReg y).toNat % 32) _ hlen (s.fb, false)
  exact ⟨hpix, hhit.trans (or_iff_right Bool.false_ne_true)⟩

theorem State.pixel_draw (s : State) (x y : Reg) (n : BitVec 4) (u : Fin 64) (w : Fin 32) :
    (s.draw x y n).fb.pixel u w = (s.fb.pixel u w ^^ s.covers x y n u w) :=
  (s.drawn_spec x y n).1 u w

theorem State.pixel_draw_ne_iff {s : State} {x y : Reg} {n : BitVec 4} {u : Fin 64} {w : Fin 32} :
    (s.draw x y n).fb.pixel u w ≠ s.fb.pixel u w ↔ s.covers x y n u w = true := by
  rw [State.pixel_draw]
  cases s.covers x y n u w <;> simp

/-- A collision is a pixel that goes out. -/
theorem State.drawn_hit_iff {s : State} {x y : Reg} {n : BitVec 4} :
    (s.drawn x y n.toNat).2 = true ↔ ∃ u w, s.fb.pixel u w = true ∧ (s.draw x y n).fb.pixel u w = false := by
  refine (s.drawn_spec x y n).2.trans (exists₂_congr fun u w => and_comm.trans (and_congr_right fun hlit => ?_))
  rw [State.pixel_draw, hlit, Bool.true_xor, Bool.not_eq_false']

theorem flagByte_eq_one_iff {f : Bool} : flagByte f = 0x01#8 ↔ f = true := by
  cases f <;> decide

theorem flagByte_eq_zero_iff {f : Bool} : flagByte f = 0x00#8 ↔ f = false := by
  cases f <;> decide

theorem State.getReg_vf_draw (s : State) (x y : Reg) (n : BitVec 4) :
    (s.draw x y n).getReg vf = flagByte (s.drawn x y n.toNat).2 :=
  State.getReg_vf_setFlag _ _

theorem State.vf_draw_eq_one_iff {s : State} {x y : Reg} {n : BitVec 4} :
    (s.draw x y n).getReg vf = 0x01#8 ↔ ∃ u w, s.fb.pixel u w = true ∧ (s.draw x y n).fb.pixel u w = false := by
  rw [State.getReg_vf_draw, flagByte_eq_one_iff, State.drawn_hit_iff]

theorem State.vf_draw_eq_zero_iff {s : State} {x y : Reg} {n : BitVec 4} :
    (s.draw x y n).getReg vf = 0x00#8 ↔ ∀ u w, s.fb.pixel u w = true → (s.draw x y n).fb.pixel u w = true := by
  rw [State.getReg_vf_draw, flagByte_eq_zero_iff, ← Bool.not_eq_true, State.drawn_hit_iff]
  simp

/-- Settles O34, by whether the sprite lies within memory. -/
theorem drawXorsTheSprite : Obligations.DrawXorsTheSprite := fun x y n s =>
  ⟨decode_encode (i := .drw x y n) rfl,
    fun hin => ⟨_, exec_drw_of_inBounds hin, fun _ _ => State.pixel_draw_ne_iff.trans State.covers_iff,
      State.vf_draw_eq_one_iff.mpr, State.vf_draw_eq_zero_iff.mpr,
      fun _ hr => State.getReg_draw_of_ne hr s x y n, rfl, onlyChanges_draw s x y n⟩,
    fun hn hout => errorTaken_of_errorOf (if_pos ⟨hn, hout⟩)⟩

/-! ### The same draw twice -/

theorem State.covers_draw {x y : Reg} (hx : x ≠ vf) (hy : y ≠ vf) (s : State) (n : BitVec 4) :
    (s.draw x y n).covers x y n = s.covers x y n := by
  unfold State.covers
  rw [State.getReg_draw_of_ne hx, State.getReg_draw_of_ne hy]
  rfl

theorem State.fb_draw_draw {x y : Reg} (hx : x ≠ vf) (hy : y ≠ vf) (s : State) (n : BitVec 4) :
    ((s.draw x y n).draw x y n).fb = s.fb :=
  Framebuffer.ext_pixel fun u w => by
    rw [State.pixel_draw, State.covers_draw hx hy, State.pixel_draw, Bool.xor_assoc, Bool.xor_self, Bool.xor_false]

/-- Settles O35: the second draw XORs with the same sprite; on an unlit display the first draw lights what the sprite covers,
and the second puts it out. -/
theorem drawingTwiceRestoresTheDisplay : Obligations.DrawingTwiceRestoresTheDisplay := by
  intro x y n s hx hy hin
  have hback := State.fb_draw_draw hx hy s n
  refine ⟨_, _, exec_drw_of_inBounds hin, exec_drw_of_inBounds hin, hback, fun hunlit => ⟨?_, ?_⟩⟩
  · exact State.vf_draw_eq_zero_iff.mpr fun u w hlit => absurd ((hunlit u w).symm.trans hlit) Bool.false_ne_true
  · rw [State.vf_draw_eq_one_iff, hback, ← State.exists_covers_iff (x := x) (y := y)]
    simp [State.pixel_draw, hunlit]

end Sys2Proof.Machine
end

section
/-! PROOFS. The keys and the timers (spec/45_input_timers.md R200 to R205): the two skips on a key, and the instructions
that read and write the timers. -/

namespace Sys2Proof.Machine

/-! ### Skips on a key (R200, R201) -/

/-- The key that `SKP` and `SKNP` test has the index `V[X] mod 16`. -/
theorem State.keyDown_lowNibble (s : State) (x : Reg) :
    s.keyDown (s.lowNibble x) = s.keys.getLsbD ((s.getReg x).toNat % 16) := by
  rw [State.keyDown, State.toNat_lowNibble]

/-- Settles O36: each of the two is a skip on the state of the key. -/
theorem keySkipsTestTheNamedKey : Obligations.KeySkipsTestTheNamedKey := by
  intro x s
  have hkey := s.keyDown_lowNibble x
  refine ⟨decode_encode (i := .skp x) rfl, decode_encode (i := .sknp x) rfl,
    exec_moves_pc_of_skipIf rfl ?_, exec_moves_pc_of_skipIf rfl ?_⟩
  · rw [hkey]
  · rw [hkey, Bool.not_eq_true']

/-! ### Reads and writes of the timers (R202, R204, R205) -/

/-- Settles O38: the read of `DT` writes one register, and the two others write one timer each. -/
theorem timerInstructionsMoveTheTimers : Obligations.TimerInstructionsMoveTheTimers := fun x _ =>
  ⟨decode_encode (i := .ldVxDt x) rfl, decode_encode (i := .ldDtVx x) rfl, decode_encode (i := .ldStVx x) rfl,
    exec_writes_of_setReg rfl, ⟨_, rfl, rfl, rfl, .of_overlay rfl⟩, ⟨_, rfl, rfl, rfl, .of_overlay rfl⟩⟩

end Sys2Proof.Machine
end

section
/-! PROOFS. The errors of the instructions (spec/60_exceptions.md R212 to R217), the events of a tick outside its steps (R223,
R225) and the tick itself (R226): its step batch and the order of its phases. -/

namespace Sys2Proof.Machine

open Sys2Proof.Safety

/-! ### Which instructions raise an error (R212 to R217) -/

/-- No row of R38 names the error latch. -/
theorem errorLatch_not_mem_partsWritten (c : Config) (i : Instr) : .errorLatch ∉ partsWritten c i := by
  cases i <;> simp [partsWritten] <;> split <;> simp

/-- Where the table names no error, the instruction answers a next state and leaves the latch alone. -/
theorem err_kept_of_errorOf_none {i : Instr} {s : State} (he : errorOf i s = none) :
    ∃ t, exec i s = .next t ∧ t.err = s.err := by
  obtain ⟨t, hx, -⟩ := exec_answers s i
  obtain ⟨hparts, -, -⟩ := frameHolds i s t he hx
  exact ⟨t, hx, hparts .errorLatch (errorLatch_not_mem_partsWritten _ _)⟩

/-- Settles O12, by what the table names for the instruction in the state. -/
theorem execRaisesExactlyTheErrorsOfTheTable : Obligations.ExecRaisesExactlyTheErrorsOfTheTable := by
  intro i s
  cases he : errorOf i s with
  | none => exact err_kept_of_errorOf_none he
  | some e => exact errorTaken_of_errorOf he

/-- Settles O13: the table has no row for these instructions, and the poll does not write the latch. -/
theorem listedVariantsNeverRaise : Obligations.ListedVariantsNeverRaise := by
  refine ⟨fun i s hret hcall hdrw hldB hst hld => err_kept_of_errorOf_none ?_,
    fun s => onlyChanges_keyWaitPoll s .errorLatch (by decide)⟩
  cases i with
  | ret => exact absurd rfl hret
  | call nnn => exact absurd rfl (hcall nnn)
  | drw x y n => exact absurd rfl (hdrw x y n)
  | ldBVx x => exact absurd rfl (hldB x)
  | stRegs x => exact absurd rfl (hst x)
  | ldRegs x => exact absurd rfl (hld x)
  | _ => rfl

/-! ### The count down of the timers (R225) -/

theorem toNat_countDown (t : Byte) : (countDown t).toNat = t.toNat - 1 := by
  unfold countDown
  split
  next h =>
    rw [h]
    rfl
  next h => bv_omega

theorem timerTick_of_running {s : State} (hh : s.halted = false)
    (hq : s.cfg.keyWaitHaltsTimers = false ∨ s.wait = false) :
    timerTick s = { s with dt := countDown s.dt, st := countDown s.st } := by
  have hcount : ¬ (s.cfg.keyWaitHaltsTimers && s.wait) = true := by
    rw [Bool.not_eq_true, Bool.and_eq_false_iff]
    exact hq
  rw [timerTick, if_neg (by simp [hh]), if_neg hcount]

theorem timerTick_of_quirk {s : State} (hq : s.cfg.keyWaitHaltsTimers = true) (hw : s.wait = true) : timerTick s = s := by
  simp [timerTick, hq, hw]

/-- Everything a timer tick can do. -/
theorem timerTick_cases (s : State) :
    timerTick s = s ∨ timerTick s = { s with dt := countDown s.dt, st := countDown s.st } := by
  unfold timerTick
  split
  · exact .inl rfl
  · split
    · exact .inl rfl
    · exact .inr rfl

/-! ### What the events outside the steps leave alone (R223) -/

theorem onlyChanges_timerTick (s : State) : OnlyChanges [.delayTimer, .soundTimer] s (timerTick s) := by
  obtain h | h := timerTick_cases s <;> rw [h] <;> exact .of_overlay rfl

theorem onlyChanges_frameOut (s : State) : OnlyChanges [.outputs] s (frameOut s) := by
  unfold frameOut
  split <;> exact .of_overlay rfl

theorem onlyChanges_setKeys (k : Word) (s : State) : OnlyChanges [.keys] s (setKeys k s) := by
  unfold setKeys
  split <;> exact .of_overlay rfl

/-- Settles O43, by the frame of each event. -/
theorem tickEventsLeaveTheEngineAlone : Obligations.TickEventsLeaveTheEngineAlone := fun k s =>
  ⟨onlyChanges_timerTick s, onlyChanges_frameOut s, onlyChanges_setKeys k s⟩

/-- Settles O39: the timers stand still in the first two cases and count down in the third. -/
theorem timerTickCountsDown : Obligations.TimerTickCountsDown := by
  refine fun s => ⟨timerTick_of_halted, timerTick_of_quirk, fun hh hq => ⟨?_, ?_, onlyChanges_timerTick s⟩⟩
  · rw [timerTick_of_running hh hq, toNat_countDown]
  · rw [timerTick_of_running hh hq, toNat_countDown]

/-! ### The step batch of a tick (R226 (a), R218) -/

theorem runSteps_succ_of_step {s t : State} (hh : s.halted = false) (hx : step s = .next t) (n : Nat) :
    runSteps (n + 1) s = runSteps n t := by
  rw [runSteps, if_neg (by simp [hh]), hx]

/-- A batch of `n` follows a chain of steps to its end: `n` of them, or fewer where the last state is halted. -/
theorem runSteps_of_chain {n m : Nat} {f : Nat → State} (hmn : m ≤ n)
    (hf : ∀ j < m, (f j).halted = false ∧ step (f j) = .next (f (j + 1))) (hend : m = n ∨ (f m).halted = true) :
    runSteps n (f 0) = .next (f m) := by
  induction m generalizing n f with
  | zero =>
    obtain rfl | hh := hend
    · rfl
    · exact runSteps_of_halted n hh
  | succ m ih =>
    obtain ⟨n, rfl⟩ : ∃ n', n = n' + 1 := Nat.exists_eq_add_one_of_ne_zero (by omega)
    obtain ⟨hh, hx⟩ := hf 0 m.succ_pos
    rw [runSteps_succ_of_step hh hx]
    exact ih (f := fun j => f (j + 1)) (Nat.le_of_succ_le_succ hmn) (fun j hj => hf (j + 1) (Nat.succ_lt_succ hj))
      (hend.imp_left Nat.succ.inj)

/-! ### The phases after the batch (R226 (b) to (d)) -/

theorem SameButDevices.halted_eq {s t : State} (h : SameButDevices s t) : t.halted = s.halted := by
  rw [h]
  rfl

theorem SameButDevices.fb_eq {s t : State} (h : SameButDevices s t) : t.fb = s.fb := by
  rw [h]

/-- The outputs are taken after the decrement (R230), and the keys replace those the steps saw. -/
theorem finishTick_of_running {s : State} (hh : s.halted = false) (k : Word) :
    finishTick k s =
      { timerTick s with frameOut := (timerTick s).fb, soundOut := (timerTick s).st != 0x00#8, keys := k } := by
  have htimer : (timerTick s).halted = false := (timerTick_sameButDevices s).halted_eq.trans hh
  have hout : (frameOut (timerTick s)).halted = false := (frameOut_sameButDevices _).halted_eq.trans htimer
  rw [finishTick, setKeys_of_running k hout, frameOut_of_running htimer]

theorem tick_of_batch_halted {s t : State} (k : Word) (hx : runSteps s.cfg.stepsPerTick s = .next t)
    (hh : t.halted = true) : tick false k s = .next (.halted, t) := by
  simp [tick, hx, hh]

theorem tick_of_batch_running {s t : State} (k : Word) (hx : runSteps s.cfg.stepsPerTick s = .next t)
    (hh : t.halted = false) : tick false k s = .next (.completed, finishTick k t) := by
  simp [tick, hx, hh]

/-- Settles O42, by the batch and then the phases after it. -/
theorem tickRunsItsPhasesInOrder : Obligations.TickRunsItsPhasesInOrder := by
  refine fun k s => ⟨fun n m f h0 hmn hf hend => h0 ▸ runSteps_of_chain hmn hf hend, rfl,
    fun t => tick_of_batch_halted k, fun t hx hh => ⟨_, tick_of_batch_running k hx hh, ?_⟩⟩
  have hframe : OnlyChanges [.delayTimer, .soundTimer, .outputs, .keys] t (finishTick k t) :=
    .of_overlay (finishTick_eq k t)
  rw [finishTick_of_running hh] at hframe ⊢
  exact ⟨rfl, rfl, (timerTick_sameButDevices t).fb_eq, bne_iff_ne, rfl, hframe⟩

/-! ### Ticks without steps -/

theorem drive_cons_of_completed {stop : Bool} {k : Word} {s t : State} (h : tick stop k s = .next (.completed, t))
    (rest : List (Bool × Word)) : drive ((stop, k) :: rest) s = drive rest t := by
  rw [drive, h]

/-- A tick without steps takes one off each timer and leaves alone what decides whether the next one does too. -/
theorem tick_without_steps {s : State} (k : Word) (hh : s.halted = false) (hn : s.cfg.stepsPerTick = 0)
    (hq : s.cfg.keyWaitHaltsTimers = false ∨ s.wait = false) :
    ∃ t, tick false k s = .next (.completed, t) ∧ t.dt = countDown s.dt ∧ t.st = countDown s.st ∧
      t.halted = false ∧ t.cfg = s.cfg ∧ t.wait = s.wait := by
  have hbatch : runSteps s.cfg.stepsPerTick s = .next s := by rw [hn, runSteps]
  refine ⟨_, tick_of_batch_running k hbatch hh, ?_⟩
  rw [finishTick_of_running hh, timerTick_of_running hh hq]
  exact ⟨rfl, rfl, hh, rfl, rfl⟩

/-- Settles O40, by the captured key vectors: one tick for each. -/
theorem ticksWithoutStepsCountDown : Obligations.TicksWithoutStepsCountDown := by
  intro ks
  induction ks with
  | nil => exact fun s _ _ _ => ⟨s, rfl, rfl, rfl⟩
  | cons k ks ih =>
    intro s hh hn hq
    obtain ⟨u, htick, hudt, hust, huh, hucfg, huwait⟩ := tick_without_steps k hh hn hq
    obtain ⟨t, hdrive, hdt, hst⟩ := ih u huh (by rwa [hucfg]) (by rwa [hucfg, huwait])
    refine ⟨t, (drive_cons_of_completed htick _).trans hdrive, ?_, ?_⟩
    · rw [hdt, hudt, toNat_countDown, List.length_cons, Nat.sub_sub, Nat.add_comm]
    · rw [hst, hust, toNat_countDown, List.length_cons, Nat.sub_sub, Nat.add_comm]

end Sys2Proof.Machine
end

section
/-! PROOFS. What `Reset(rom)` builds (spec/70_reset_and_hazards.md R250 to R252): the reset state but for memory, and in
memory the ROM over the font and zeros. -/

namespace Sys2Proof.Machine

/-- A ROM that fits is loaded into an otherwise fresh state: only memory depends on it. -/
theorem resetRom_of_fits {rom : List Byte} (s : State) (hlen : rom.length ≤ romMax) :
    ∃ m, resetRom rom s = .next { State.reset with cfg := s.cfg, draws := s.draws, mem := m } :=
  ⟨_, (if_pos hlen).trans (congrArg Host.Outcome.next (State.writeBytes_eq ..))⟩

theorem resetRom_of_too_long {rom : List Byte} (s : State) (hlen : romMax < rom.length) :
    resetRom rom s = .fault .romLoadError :=
  if_neg (Nat.not_le.mpr hlen)

/-- Memory after `Reset(rom)` (R251): the ROM's bytes where it lies, what unwritten memory holds elsewhere. -/
theorem resetRom_readByte {rom : List Byte} {s t : State} (h : resetRom rom s = .next t) (a : Nat) :
    t.readByte a =
      if romBase ≤ a ∧ a < romBase + rom.length then rom.getD (a - romBase) 0x00#8 else resetByte s.cfg a := by
  obtain ⟨hlen, rfl⟩ := resetRom_next h
  exact State.readByte_writeBytes rfl romBase rom (Nat.add_le_add_left hlen romBase) a

theorem resetRom_readByte_rom {rom : List Byte} {s t : State} (h : resetRom rom s = .next t) {j : Nat}
    (hj : j < rom.length) : t.readByte (0x200 + j) = rom.getD j 0x00#8 := by
  rw [resetRom_readByte h, romBase, if_pos (by omega), Nat.add_sub_cancel_left]

theorem resetRom_readByte_outside_rom {rom : List Byte} {s t : State} (h : resetRom rom s = .next t) {a : Nat}
    (ha : a < 0x200 ∨ 0x200 + rom.length ≤ a) : t.readByte a = resetByte s.cfg a := by
  rw [resetRom_readByte h, romBase, if_neg (by omega)]

/-- Inside the font an unwritten byte is the font's (spec/20_memory.md R61). -/
theorem resetByte_in_font (c : Config) (j : Fin 80) : resetByte c (c.fontBase + j.val) = c.fontData[j.val]'j.isLt := by
  rw [resetByte, dif_pos (by omega)]
  simp only [Nat.add_sub_cancel_left]

/-- The font ends below the ROM (spec/20_memory.md R61), so no ROM overwrites it. -/
theorem resetRom_readByte_font {rom : List Byte} {s t : State} (hwf : s.cfg.wf = true) (h : resetRom rom s = .next t)
    (j : Fin 80) : t.readByte (s.cfg.fontBase + j.val) = s.cfg.fontData[j.val]'j.isLt := by
  have hfont : s.cfg.fontBase + 79 ≤ 0x1FF := of_decide_eq_true hwf
  rw [resetRom_readByte_outside_rom h (by omega), resetByte_in_font]

/-- Settles O44: every part but memory is the reset state's, and memory is read in the ROM, in the font and outside both. -/
theorem resetBuildsTheWholeState : Obligations.ResetBuildsTheWholeState := by
  refine fun rom s hwf => ⟨fun hlen => ?_, resetRom_of_too_long s⟩
  obtain ⟨m, h⟩ := resetRom_of_fits s hlen
  exact ⟨_, h, State.getReg_reset, rfl, rfl, rfl, State.stack_reset, rfl, rfl,
    fun _ => resetRom_readByte_rom h, resetRom_readByte_font hwf h,
    fun a hfont hrom => (resetRom_readByte_outside_rom h hrom).trans (resetByte_outside_font hfont),
    Framebuffer.pixel_blank, rfl, rfl, rfl, rfl, Framebuffer.pixel_blank, rfl, Bool.and_false _, rfl⟩

end Sys2Proof.Machine
end
